-- ==== Sys2Proof/Word.lean ====
section
/-! DEFINITION. The widths the spec uses: bytes, 16-bit operands, 32-bit command words, line levels. -/

namespace Sys2Proof

/-- An 8-bit value: a character code, a segment pattern, a buffer byte, a duty (00_scope.md R8). -/
abbrev Byte := BitVec 8

/-- The 32-bit command word `CW` (30_encoding.md R51). -/
abbrev CommandWord := BitVec 32

/-- The level of a line: `true` is high, 1; `false` is low, 0 (30_encoding.md R58). -/
abbrev Bit := Bool

end Sys2Proof
end

