-- ==== Sys2Proof/Syntax.lean ====
section
/-! DEFINITION. The nine commands of the block, one constructor per row of spec/opcode_table.json, in the table's order. -/

namespace Sys2Proof

/-- The command set (30_encoding.md R53). The buffer operand of PRINT_TEXT and PRINT_RAW is no part of the
command word (R51): it is the content of the space `BUF` presented with the command. -/
inductive Instr where
  /-- PRINT_TEXT, `printText(buffer, length, invert)` (42_print_commands.md R71). -/
  | printText (invert : Bool) (length : Nat)
  /-- PRINT_NUMBER, `printNumber(value)` (R73). -/
  | printNumber (value : BitVec 16)
  /-- PRINT_RAW, `printRaw(buffer, length)` (R75). -/
  | printRaw (length : Nat)
  /-- DISPLAY_ENABLE (44_enable_brightness.md R86). -/
  | displayEnable
  /-- DISPLAY_DISABLE (R87). -/
  | displayDisable
  /-- ENTER_NORMAL_MODE (43_mode_control.md R81). -/
  | enterNormalMode
  /-- ENTER_SPECIAL_MODE (R80). -/
  | enterSpecialMode
  /-- SET_BRIGHTNESS, `setBrightness(level)` (R89). -/
  | setBrightness (level : Byte)
  /-- SELF_TEST, named by the source and not specified (45_selftest.md R92). -/
  | selfTest
deriving DecidableEq, Repr

end Sys2Proof
end

