-- ==== Sys2Proof/WellFormed.lean ====
section
/-! DEFINITION. Which commands can be written as a command word. -/

namespace Sys2Proof

/-- The check of a command's operands: `length` is unsigned 16 bits (30_encoding.md R51, R52). Every other
operand's range is its type: `value` has 16 bits, `level` 8, `invert` 1. -/
def Instr.wellFormed : Instr → Bool
  | .printText _ length => decide (length < 2 ^ 16)
  | .printNumber _ => true
  | .printRaw length => decide (length < 2 ^ 16)
  | .displayEnable => true
  | .displayDisable => true
  | .enterNormalMode => true
  | .enterSpecialMode => true
  | .setBrightness _ => true
  | .selfTest => true

end Sys2Proof
end

