-- ==== Sys2Proof/Decode.lean ====
section
/-! DEFINITION. The command word: its fields, the decoder, the encoder (30_encoding.md R51 to R55; the format is
the spec's own decision D15, log 15). -/

namespace Sys2Proof

/-- Why a word is no command of the block (30_encoding.md R54 b). -/
inductive DecodeError where
  /-- `op` is 0x0 or 0xA to 0xF. -/
  | reservedOpcode (op : Nat)
  /-- Bits 27:17 are not all 0. -/
  | zeroFieldSet
  /-- Bit 16 is 1 in a command other than PRINT_TEXT. -/
  | invSet
  /-- `arg` is not 0 in a command without operand. -/
  | argSet
  /-- Bits 15:8 are not all 0 in SET_BRIGHTNESS. -/
  | levelHighSet
deriving DecidableEq, Repr

/-- `op`, bits 31:28 (R51). -/
def opField (w : CommandWord) : BitVec 4 := w.extractLsb' 28 4

/-- `zero`, bits 27:17 (R51). -/
def zeroField (w : CommandWord) : BitVec 11 := w.extractLsb' 17 11

/-- `inv`, bit 16 (R51). -/
def invField (w : CommandWord) : Bool := w.getLsbD 16

/-- `arg`, bits 15:0 (R51). -/
def argField (w : CommandWord) : BitVec 16 := w.extractLsb' 0 16

/-- The `zero` field must be 0 in every command (R51). -/
def checkZero (zero : BitVec 11) (r : Except DecodeError Instr) : Except DecodeError Instr :=
  if zero = 0#11 then r else .error .zeroFieldSet

/-- `inv` must be 0 outside PRINT_TEXT (R51). -/
def checkInv (inv : Bool) (r : Except DecodeError Instr) : Except DecodeError Instr :=
  if inv = false then r else .error .invSet

/-- `arg` must be 0 in a command without operand (R51). -/
def checkArg (arg : BitVec 16) (r : Except DecodeError Instr) : Except DecodeError Instr :=
  if arg = 0#16 then r else .error .argSet

/-- A command without operand: `zero`, `inv` and `arg` are all 0 (R51). -/
def plainCommand (zero : BitVec 11) (inv : Bool) (arg : BitVec 16) (i : Instr) : Except DecodeError Instr :=
  checkZero zero (checkInv inv (checkArg arg (.ok i)))

/-- SET_BRIGHTNESS: `level` in bits 7:0, bits 15:8 zero (R51). -/
def brightnessCommand (arg : BitVec 16) : Except DecodeError Instr :=
  if arg.extractLsb' 8 8 = 0#8 then .ok (.setBrightness (arg.extractLsb' 0 8)) else .error .levelHighSet

/-- The command named by the four fields (R51 to R53); no operand is sign-extended, scaled or shifted (R52), and
neither the enable state nor the chips' mode changes decoding (R55). -/
def decodeFields (op : BitVec 4) (zero : BitVec 11) (inv : Bool) (arg : BitVec 16) : Except DecodeError Instr :=
  match op.toNat with
  | 1 => checkZero zero (.ok (.printText inv arg.toNat))
  | 2 => checkZero zero (checkInv inv (.ok (.printNumber arg)))
  | 3 => checkZero zero (checkInv inv (.ok (.printRaw arg.toNat)))
  | 4 => plainCommand zero inv arg .displayEnable
  | 5 => plainCommand zero inv arg .displayDisable
  | 6 => plainCommand zero inv arg .enterNormalMode
  | 7 => plainCommand zero inv arg .enterSpecialMode
  | 8 => checkZero zero (checkInv inv (brightnessCommand arg))
  | 9 => plainCommand zero inv arg .selfTest
  | n => .error (.reservedOpcode n)

/-- The decoder: the command a word names, or by which name it is refused (R54). -/
def decode (w : CommandWord) : Except DecodeError Instr :=
  decodeFields (opField w) (zeroField w) (invField w) (argField w)

/-- The word of a command's fields, the most significant first (R51). -/
def packWord (op : BitVec 4) (zero : BitVec 11) (inv : Bool) (arg : BitVec 16) : CommandWord :=
  op ++ zero ++ BitVec.ofBool inv ++ arg

/-- The word of a command (R51, R53). -/
def encode : Instr → CommandWord
  | .printText invert length => packWord 1 0 invert (BitVec.ofNat 16 length)
  | .printNumber value => packWord 2 0 false value
  | .printRaw length => packWord 3 0 false (BitVec.ofNat 16 length)
  | .displayEnable => packWord 4 0 false 0
  | .displayDisable => packWord 5 0 false 0
  | .enterNormalMode => packWord 6 0 false 0
  | .enterSpecialMode => packWord 7 0 false 0
  | .setBrightness level => packWord 8 0 false (0#8 ++ level)
  | .selfTest => packWord 9 0 false 0

/-- The word whose low `nbits` bits are those of `w`, every bit above them 0. -/
def tableWord (nbits w : Nat) : CommandWord := BitVec.ofNat 32 (w % 2 ^ nbits)

/-- The instruction the decoder reads from an opcode-table word: the block's command is one 32-bit word, so there
is no order of words or bytes to lay out (R51; log 29). -/
def decodeTableWord (nbits w : Nat) : Option Instr := (decode (tableWord nbits w)).toOption

end Sys2Proof
end

