-- ==== Sys2Proof/Config.lean ====
section
/-! DEFINITION. The parameters of 00_scope.md R7 and the values the spec leaves unspecified. A constant without a
body is open: no proof can see its value, so what is proved holds for every value. -/

namespace Sys2Proof

/-- A pin identifier: opaque, platform-defined, without numeric meaning (10_state.md R14, R22). The number only
tells identifiers apart (log 21). -/
structure PinId where
  id : Nat
deriving DecidableEq, Repr, Inhabited

/-- Which of the two pin-write implementations stands behind the lines (00_scope.md R7, 20_memory.md R33). -/
inductive PinBackend where
  | digital
  | pwmCapable
deriving DecidableEq, Repr, Inhabited

/-- The chips' operating mode, a property of the attached chips (10_state.md R25). -/
inductive ChipMode where
  | normal
  | special
deriving DecidableEq, Repr, Inhabited

/-- The operands of CONFIGURE (70_reset_and_hazards.md R107): `chip_count` of any sign and the four pins, the
enable pin optional. -/
structure Construction where
  requestedChips : Int
  dataPin : PinId
  clockPin : PinId
  latchPin : PinId
  enablePin : Option PinId
deriving DecidableEq, Repr, Inhabited

namespace Config

/-- `MIN_CHIPS`. DESIGN CHOICE (log 2): the spec's decision D1. Unsafe for claims about a chain of one chip. -/
def minChips : Nat := 1

/-- By how much `MAX_CHIPS` exceeds `MIN_CHIPS`: open (00_scope.md R7, D2; log 3). Safe. -/
opaque maxChipsAboveMin : Nat

/-- `MAX_CHIPS`, any integer not below `MIN_CHIPS` (00_scope.md R7, D2; log 3). -/
def maxChips : Nat := minChips + maxChipsAboveMin

/-- The 96 entries of `SEG_ROM`, open (40_encoder.md R60, D4; log 4). An entry has seven bits here because bit 7
of every entry is zero (R60 item 2). Safe. -/
opaque segTable : Fin 96 → BitVec 7

/-- `PIN_BACKEND`, open, read by no rule (00_scope.md R7, D5; log 26). -/
opaque pinBackend : PinBackend

/-- The construction arguments of this instance, open (00_scope.md R7; log 1). Safe. -/
opaque construction : Construction

/-- The byte read at a buffer index the caller did not supply: any value (93_implementation_defined.md U3;
log 8). The arguments are the instance's stream of free values, so that no two instances need read the same byte
(60_exceptions.md R105; log 32), the number of the draw, and the buffer index. Safe. -/
opaque freeByte : Nat → Nat → Nat → Byte

/-- The chips' mode when CONFIGURE runs: unspecified (10_state.md R25, U5; log 10), for each instance on its own, by its
stream of free values (log 32). Safe. -/
opaque powerOnChipMode : Nat → ChipMode

/-- The bit the chain of an instance (its stream of free values, log 32) held `k` places before the first bit clocked
in since reset: unspecified (20_memory.md R42, U5; log 10). Safe. -/
opaque powerOnChainBit : Nat → Nat → Bit

/-- Bit `k` of the output latches of an instance's chips (its stream of free values, log 32) when CONFIGURE runs:
unspecified (10_state.md R25, U5; log 10). Safe. -/
opaque powerOnOutBit : Nat → Nat → Bit

end Config

end Sys2Proof
end

