-- ==== Sys2Proof/Machine/Memory.lean ====
section
/-! DEFINITION. The two memory spaces the block reads: `BUF`, the caller's bytes, and `ROM`, the segment table. -/

namespace Sys2Proof.Machine

/-- The space `BUF` as the bytes the caller supplied, each with its index (20_memory.md R30; log 13). -/
abbrev Memory := List Host.Cell

/-- The canonical form: indices strictly rising. An index that is not listed reads as no byte at all, so no entry
can equal what an unlisted index reads as. -/
abbrev Memory.wf (m : Memory) : Prop := m.Pairwise (fun a b => a.1 < b.1)

/-- `MemRead(BUF, k, 1)`: the byte at index `k`, none where the caller supplied none (20_memory.md R30). -/
def Memory.read : Memory → Nat → Option Byte
  | [], _ => none
  | (a, b) :: rest, k => if a = k then some b else Memory.read rest k

/-- The bytes of a buffer at the indices from `k` upward. -/
def Memory.ofBytesFrom : Nat → List Byte → Memory
  | _, [] => []
  | k, b :: bs => (k, b) :: Memory.ofBytesFrom (k + 1) bs

/-- A caller's buffer: its bytes at the indices 0 upward (20_memory.md R28). -/
def Memory.ofBytes (bs : List Byte) : Memory := Memory.ofBytesFrom 0 bs

/-- `MemRead(ROM, k, 1) = SEG_ROM[k]`, an 8-bit entry whose bit 7 is zero (20_memory.md R29, 40_encoder.md R60). -/
def romRead (k : Fin 96) : Byte := (Config.segTable k).setWidth 8

end Sys2Proof.Machine
end

