-- ==== Sys2Proof/Machine/Lines.lean ====
section
/-! DEFINITION. The output ports, the events of the trace, the pin output registers, and what an event writes. -/

namespace Sys2Proof.Machine

/-- The four ports (00_scope.md R7, D3). -/
inductive Port where
  | sdi
  | clk
  | le
  | oe
deriving DecidableEq, Repr

/-- The events of the trace (10_state.md R24). -/
inductive Event where
  /-- `W(p, b)`, a level write (00_scope.md R9). -/
  | write (p : Port) (b : Bit)
  /-- `P(d)`, a PWM write of duty `d` to `OE`. -/
  | pwm (duty : Byte)
  /-- `DIAG`, the diagnostic message, opaque (44_enable_brightness.md R90; log 19). -/
  | diag
deriving DecidableEq, Repr

/-! The event abbreviations of 00_scope.md R10: `D0`, `D1`, `C+`, `C-`, `L+`, `L-`, `E+`, `E-`. -/

abbrev Event.data (b : Bit) : Event := .write .sdi b
abbrev Event.clockUp : Event := .write .clk true
abbrev Event.clockDown : Event := .write .clk false
abbrev Event.latchUp : Event := .write .le true
abbrev Event.latchDown : Event := .write .le false
abbrev Event.oeUp : Event := .write .oe true
abbrev Event.oeDown : Event := .write .oe false

/-- What `pin[OE]` holds (10_state.md R17). -/
inductive OeDrive where
  | level (b : Bit)
  | pwm (duty : Byte)
deriving DecidableEq, Repr

/-- The pin output registers (10_state.md R16). `oe` is absent exactly when there is no enable line. -/
structure Pins where
  sdi : Bit
  clk : Bit
  le : Bit
  oe : Option OeDrive
deriving DecidableEq, Repr

/-- `PinWrite(p, b)` on the registers: the last level written is held (00_scope.md R9, 10_state.md R16). On `OE` it
replaces a PWM write: the last write wins (R17, D8; log 17). -/
def Pins.write (p : Pins) : Port → Bit → Pins
  | .sdi, b => { p with sdi := b }
  | .clk, b => { p with clk := b }
  | .le, b => { p with le := b }
  | .oe, b => { p with oe := some (.level b) }

/-- `PinPwm(OE, d)` on the registers (00_scope.md R9). -/
def Pins.writePwm (p : Pins) (duty : Byte) : Pins := { p with oe := some (.pwm duty) }

/-- What an event writes; `DIAG` writes nothing (00_scope.md R9, R90). -/
def Pins.apply (p : Pins) : Event → Pins
  | .write port b => p.write port b
  | .pwm d => p.writePwm d
  | .diag => p

/-- The registers after a list of events, oldest first. -/
def Pins.applyAll (p : Pins) (es : List Event) : Pins := es.foldl Pins.apply p

/-- For how many 255ths of the time the chips' outputs are enabled: `OE` is active low, and `Pwm(d)` is high for
`d/255` of the time (10_state.md R17, 30_encoding.md R58). -/
def OeDrive.enabledShare : OeDrive → Nat
  | .level false => 255
  | .level true => 0
  | .pwm d => 255 - d.toNat

end Sys2Proof.Machine
end

