-- ==== Sys2Proof/Machine/Chips.lean ====
section
/-! DEFINITION. The chain observer of 20_memory.md R40 to R43: a model of the attached chips, not of the block. Its
conventions are the spec's, marked there as decision D14 and general knowledge G2, G3: the rising edge is the active one,
the chain shifts on every clock edge and copies on every latch edge, the byte shifted last sits in the nearest chip.
PRESUMED (log 11). Unsafe for claims about what the chips show. -/

namespace Sys2Proof.Machine

/-- Observer state (10_state.md R25). `sr` holds the bits clocked in since reset, newest last; `out` what the output
drivers show. -/
structure Chips where
  mode : ChipMode
  sr : List Bit
  out : List Bit
deriving DecidableEq, Repr

/-- The newest `m` bits of the chain, newest last. Where fewer than `m` bits were clocked in since reset, the older
ones are unspecified (20_memory.md R42; log 10), for each instance on its own (`stream`, log 32). -/
def newestBits (stream m : Nat) (sr : List Bit) : List Bit :=
  ((List.range (m - sr.length)).map (Config.powerOnChainBit stream)).reverse ++ sr.drop (sr.length - m)

/-- A rising edge of `CLK`: the level of `SDI` is appended (20_memory.md R41). -/
def Chips.shiftIn (c : Chips) (b : Bit) : Chips := { c with sr := c.sr ++ [b] }

/-- A rising edge of `LE`: the newest `8 × N` bits are copied to the outputs (20_memory.md R42). -/
def Chips.latch (stream n : Nat) (c : Chips) : Chips := { c with out := newestBits stream (8 * n) c.sr }

/-- The observer's reaction to an event, given the registers before it (20_memory.md R40): only a write of 1 to a
clock or latch line that held 0 is an edge it acts on. -/
def Chips.react (stream n : Nat) (p : Pins) (c : Chips) : Event → Chips
  | .write .clk true => if p.clk then c else c.shiftIn p.sdi
  | .write .le true => if p.le then c else c.latch stream n
  | .write _ _ => c
  | .pwm _ => c
  | .diag => c

/-- The eight output bits of the chip at distance `d` from the block, oldest first (20_memory.md R41, R42). -/
def Chips.outBits (c : Chips) (d : Nat) : List Bit := (c.out.drop (c.out.length - 8 * (d + 1))).take 8

end Sys2Proof.Machine
end

