-- ==== Sys2Proof/Machine/Flags.lean ====
section
/-! DEFINITION. The one status flag of the block, `enable_state`, and the state update a command makes when its last
event is out (10_state.md R15, R20, R21). -/

namespace Sys2Proof.Machine

/-- `enable_state` (10_state.md R15). -/
inductive EnableState where
  | disabled
  | enabled
deriving DecidableEq, Repr

/-- The encoding of the flag: ENABLED 1, DISABLED 0 (10_state.md R15, D7). -/
def EnableState.bit : EnableState → Bit
  | .disabled => false
  | .enabled => true

/-- The `OE` level that goes with the flag: active low (30_encoding.md R58). -/
def EnableState.oeLevel (e : EnableState) : Bit := !e.bit

/-- The update of a command that takes effect when its event list is empty (10_state.md R20): the flag it writes, and
the chip mode the observer records (20_memory.md R43). `none` writes nothing. -/
structure Finish where
  enable : Option EnableState
  mode : Option ChipMode
deriving DecidableEq, Repr

/-- The update of a command that writes neither (the print commands, SET_BRIGHTNESS; 10_state.md R15). -/
def Finish.keep : Finish := ⟨none, none⟩

/-- DISPLAY_ENABLE and DISPLAY_DISABLE write the flag (44_enable_brightness.md R86, R87). -/
def Finish.setFlag (e : EnableState) : Finish := ⟨some e, none⟩

/-- ENTER_SPECIAL_MODE forces DISABLED and the chips are in SPECIAL mode (43_mode_control.md R80, 20_memory.md R43). -/
def Finish.special : Finish := ⟨some .disabled, some .special⟩

/-- ENTER_NORMAL_MODE: the chips are in NORMAL mode; the flag is written only through the inner DISPLAY_ENABLE, only
when it was ENABLED (43_mode_control.md R81, 90_conflicts.md C5). -/
def Finish.normal (was : EnableState) : Finish :=
  match was with
  | .enabled => ⟨some .enabled, some .normal⟩
  | .disabled => ⟨none, some .normal⟩

/-- The flag after the update. -/
def Finish.flagAfter (f : Finish) (e : EnableState) : EnableState := f.enable.getD e

/-- The observer's chip mode after the update. -/
def Finish.modeAfter (f : Finish) (m : ChipMode) : ChipMode := f.mode.getD m

end Sys2Proof.Machine
end

