-- ==== Sys2Proof/Machine/Reset.lean ====
section
/-! DEFINITION. CONFIGURE: the configuration registers and the value of each piece of state after construction
(70_reset_and_hazards.md R107 to R111). -/

namespace Sys2Proof.Machine

/-- The configuration registers, written by CONFIGURE and by nothing else (10_state.md R14). -/
structure ChainConfig where
  /-- `N`, the effective chip count. -/
  n : Nat
  dataPin : PinId
  clockPin : PinId
  latchPin : PinId
  /-- Absent when no enable line is configured. -/
  enablePin : Option PinId
deriving DecidableEq, Repr

/-- `HAS_OE`: true exactly when an enable pin was given (10_state.md R14). -/
def ChainConfig.hasOE (c : ChainConfig) : Bool := c.enablePin.isSome

/-- `clamp(r)` to the nearest of the bounds (70_reset_and_hazards.md R108). -/
def clampChips (lo hi : Nat) (r : Int) : Nat :=
  if r < (lo : Int) then lo else if (hi : Int) < r then hi else r.toNat

/-- The configuration CONFIGURE writes (R107). -/
def makeConfig (maxChips : Nat) (c : Construction) : ChainConfig :=
  { n := clampChips Config.minChips maxChips c.requestedChips
    dataPin := c.dataPin
    clockPin := c.clockPin
    latchPin := c.latchPin
    enablePin := c.enablePin }

/-- The lines after CONFIGURE: data, clock and latch low, the enable line, where there is one, high (R110). DESIGN
CHOICE (log 6): the spec's decision D12. Unsafe. -/
def resetPins (hasOE : Bool) : Pins :=
  { sdi := false, clk := false, le := false, oe := if hasOE then some (.level true) else none }

/-- The flag after CONFIGURE (R110). DESIGN CHOICE (log 5): the spec's decision D7. Unsafe. -/
def resetEnable : EnableState := .disabled

/-- The chips when CONFIGURE runs: unspecified, and CONFIGURE does not reset them (10_state.md R25,
70_reset_and_hazards.md R111; log 10), the chain of each instance on its own (60_exceptions.md R105; log 32). Safe. -/
def powerOnChips (stream n : Nat) : Chips :=
  { mode := Config.powerOnChipMode stream, sr := [], out := (List.range (8 * n)).map (Config.powerOnOutBit stream) }

end Sys2Proof.Machine
end

