-- ==== Sys2Proof/Machine/State.lean ====
section
/-! DEFINITION. The state of the block and of what stands beside it, its reset value, and the reasons a step can
stop. -/

namespace Sys2Proof.Machine

/-- The sequencer position (10_state.md R20): idle, or busy with the events still to emit and the update that takes
effect after the last of them. -/
inductive Seq where
  | idle
  | busy (rest : List Event) (finish : Finish)
deriving DecidableEq, Repr

/-- A command as the host presents it: its word and the content of the space `BUF` (30_encoding.md R51, 20_memory.md
R30). -/
structure HostCommand where
  word : CommandWord
  buf : Memory
deriving DecidableEq, Repr

/-- The machine, in the four classes of 10_state.md R13, and the host's side of the command interface. -/
structure State where
  /-- Configuration registers (10_state.md R14). -/
  config : ChainConfig
  /-- `enable_state` (R15). -/
  enable : EnableState
  /-- Pin output registers (R16, R17). -/
  pins : Pins
  /-- Every event emitted since construction, oldest first (R24). -/
  trace : List Event
  /-- Sequencer position (R20). -/
  seq : Seq
  /-- Observer state, of the attached chips (R25). -/
  chips : Chips
  /-- The space `BUF`, presented with the command that is being executed (20_memory.md R30; log 13). -/
  buf : Memory
  /-- The model's own: the commands the host will hand over, in order (70_reset_and_hazards.md R122; log 14). -/
  inbox : List HostCommand
  /-- The model's own, no identifier of the block: which stream of free values this instance draws from, so that
  nothing relates the unspecified values of two instances (60_exceptions.md R105; log 32). -/
  freeStream : Nat
  /-- The model's own: the number of the next draw of unspecified buffer bytes (42_print_commands.md R76; log 9). -/
  freeDraws : Nat
deriving DecidableEq, Repr

/-- The block raises no exception and nothing in it is fatal (60_exceptions.md R94): there is no fault. -/
inductive Fault where
deriving DecidableEq, Repr

/-- Why the model gives a situation no meaning. Every refusal is safe: a claim about such a run cannot be proved. -/
inductive Refusal where
  /-- `exec` answers this for an instruction whose meaning is not written. No arm does. Safe. -/
  | notModelled (mnemonic : String)
  /-- `step` answers this for a word that is no command of the block (30_encoding.md R54 b, D16; log 15). Safe. -/
  | notACommand (why : DecodeError)
  /-- SELF_TEST: the spec gives it no algorithm (45_selftest.md R92, D21; log 23). Safe. -/
  | selfTestNotSpecified
  /-- `launch` answers this when two instances name the same pin (60_exceptions.md R105, U1; log 22). Safe. -/
  | sharedPins
deriving DecidableEq, Repr

/-- CONFIGURE, for a given `MAX_CHIPS` (70_reset_and_hazards.md R107, R110), of the instance that draws its unspecified
values from the given stream (log 32). -/
def State.configure (stream maxChips : Nat) (c : Construction) : State :=
  { config := makeConfig maxChips c
    enable := resetEnable
    pins := resetPins (makeConfig maxChips c).hasOE
    trace := []
    seq := .idle
    chips := powerOnChips stream (makeConfig maxChips c).n
    buf := []
    inbox := []
    freeStream := stream
    freeDraws := 0 }

/-- The machine right after CONFIGURE with the open construction arguments of Config (log 1), drawing from
stream 0 of the free values (log 32). -/
def State.reset : State := State.configure 0 Config.maxChips Config.construction

end Sys2Proof.Machine
end

