-- ==== Sys2Proof/Machine/Wire.lean ====
section
/-! DEFINITION. The shift-out primitives as event lists: CLOCK_PULSE, SHIFT_PATTERN, LATCH, a frame, and the two mode
sequences (41_shift_primitives.md, 43_mode_control.md). -/

namespace Sys2Proof.Machine

/-- `WIRE_MASK`: the pattern bit of each wire position, dot, A, B, C, E, G, F, D (30_encoding.md R47). -/
def wireMask : List Byte := [0x80, 0x10, 0x20, 0x01, 0x04, 0x40, 0x08, 0x02]

/-- `WIRE8(p)`: the levels a pattern puts on `SDI`, first shifted first (30_encoding.md R48). -/
def wire8 (p : Byte) : List Bit := wireMask.map fun m => decide (p &&& m ≠ 0)

/-- The pattern whose wire levels are the given ones: how the observer reads a chip (20_memory.md R42). -/
def patternOfWire (bits : List Bit) : Byte :=
  (wireMask.zip bits).foldl (fun p mb => if mb.2 then p ||| mb.1 else p) 0

/-- The pattern the chip at distance `d` shows (20_memory.md R42). -/
def Chips.shown (c : Chips) (d : Nat) : Byte := patternOfWire (c.outBits d)

/-- CLOCK_PULSE (41_shift_primitives.md R64). -/
def clockPulse : List Event := [.clockUp, .clockDown]

/-- One data bit: the `SDI` write, then the pulse that shifts it (R66). -/
def shiftBit (b : Bit) : List Event := .data b :: clockPulse

/-- SHIFT_PATTERN: `SHIFT(p)`, 24 events, the bits in wire order (41_shift_primitives.md R66). -/
def shiftPattern (p : Byte) : List Event := (wire8 p).flatMap shiftBit

/-- LATCH (41_shift_primitives.md R67). -/
def latchPulse : List Event := [.latchUp, .latchDown]

/-- A frame: the patterns, first shifted first, then one latch pulse (30_encoding.md R49). -/
def frame (patterns : List Byte) : List Event := patterns.flatMap shiftPattern ++ latchPulse

/-- MODE_PREFIX, steps 1 to 6 of both mode transitions (43_mode_control.md R79). -/
def modePrefix : List Event :=
  [.oeUp] ++ clockPulse ++ [.oeDown] ++ clockPulse ++ [.oeUp] ++ clockPulse ++ clockPulse

/-- The pin writes of ENTER_SPECIAL_MODE, steps 1 to 10 (43_mode_control.md R80). -/
def specialSequence : List Event :=
  modePrefix ++ [.latchUp] ++ clockPulse ++ [.latchDown] ++ clockPulse

/-- The pin writes of ENTER_NORMAL_MODE up to the enable test: the prefix and three pulses (43_mode_control.md R81,
90_conflicts.md C3; log 25). -/
def normalSequence : List Event := modePrefix ++ clockPulse ++ clockPulse ++ clockPulse

end Sys2Proof.Machine
end

