-- ==== Sys2Proof/Machine/Ops.lean ====
section
/-! DEFINITION. The named operations over the state: emitting an event, the sequencer, issuing a command. There is no
exception to take and none to return from (60_exceptions.md R94, R99, R100). -/

namespace Sys2Proof.Machine

/-- `HAS_OE` of this instance (10_state.md R14). -/
def State.hasOE (s : State) : Bool := s.config.hasOE

/-- The physical pin that carries a role; none for `OE` without an enable line (10_state.md R14, 20_memory.md R31). -/
def State.pinOf (s : State) : Port → Option PinId
  | .sdi => some s.config.dataPin
  | .clk => some s.config.clockPin
  | .le => some s.config.latchPin
  | .oe => s.config.enablePin

/-- The output ports of the instance: three, or four with an enable line; there is no input (20_memory.md R31,
70_reset_and_hazards.md R109). -/
def State.outputs (s : State) : List Port :=
  [.sdi, .clk, .le] ++ (if s.hasOE then [.oe] else [])

/-- The port an event writes; none for `DIAG` (10_state.md R24). -/
def Event.port : Event → Option Port
  | .write p _ => some p
  | .pwm _ => some .oe
  | .diag => none

/-- One micro-step's event: its pin write, the observer's reaction to it, and the trace (00_scope.md R9, 10_state.md
R20, 20_memory.md R40). -/
def State.emit (s : State) (e : Event) : State :=
  { s with
    pins := s.pins.apply e
    chips := s.chips.react s.freeStream s.config.n s.pins e
    trace := s.trace ++ [e] }

/-- A list of events, oldest first. -/
def State.emitAll (s : State) (es : List Event) : State := es.foldl State.emit s

/-- The block keeps no copy of the buffer after the command ends (20_memory.md R30; log 13). -/
def State.dropBuffer (s : State) : State := { s with buf := [] }

/-- The end of a command's event list: its state update takes effect and the sequencer is IDLE (10_state.md R20). The
caller's buffer is still presented; whoever ends the command drops it: `microStep` and `settle` at once, `step` after
`exec` (20_memory.md R30; log 13). -/
def State.finish (s : State) (f : Finish) : State :=
  { s with
    enable := f.flagAfter s.enable
    chips := { s.chips with mode := f.modeAfter s.chips.mode }
    seq := .idle }

/-- What acceptance of a command computes (10_state.md R20): its whole event list, the update after it, and how many
draws of unspecified buffer bytes it made (log 9). -/
structure Plan where
  events : List Event
  finish : Finish
  draws : Nat
deriving DecidableEq, Repr

/-- A command that does nothing at all (60_exceptions.md R96). -/
def Plan.nothing : Plan := ⟨[], .keep, 0⟩

/-- Acceptance: `seq <- BUSY(list)` (10_state.md R20). -/
def State.accept (s : State) (p : Plan) : State :=
  { s with seq := .busy p.events p.finish, freeDraws := s.freeDraws + p.draws }

/-- One micro-step: emit the head event, or, when the list is empty, finish the command and drop its buffer
(10_state.md R20, 20_memory.md R30, 43_mode_control.md R83). An idle block holds its lines (60_exceptions.md R106). -/
def State.microStep (s : State) : State :=
  match s.seq with
  | .idle => s
  | .busy [] f => (s.finish f).dropBuffer
  | .busy (e :: es) f => { s.emit e with seq := .busy es f }

/-- `k` micro-steps. -/
def State.microSteps : Nat → State → State
  | 0, s => s
  | k + 1, s => State.microSteps k s.microStep

/-- The command boundary the machine is at or running towards: the running command has emitted its last event and ended
(70_reset_and_hazards.md R115, R122). -/
def State.settle (s : State) : State :=
  match s.seq with
  | .idle => s
  | .busy es f => ((s.emitAll es).finish f).dropBuffer

/-- A command run from acceptance to its last event and its state update (10_state.md R20, R11). -/
def State.runPlan (s : State) (p : Plan) : State := ((s.accept p).emitAll p.events).finish p.finish

/-- A command executed as one step: held off until the running command has emitted its last event
(70_reset_and_hazards.md R122; log 27), accepted, and run to completion (10_state.md R20, R11; log 7). The buffer stays presented: `step` drops it. -/
def State.issue (s : State) (plan : State → Plan) : Host.Outcome State Fault Refusal :=
  .next (s.settle.runPlan (plan s.settle))

/-- The command's word and buffer reach the block: `BUF` is the buffer presented with it (20_memory.md R30). -/
def State.present (s : State) (c : HostCommand) (rest : List HostCommand) : State :=
  { s with buf := c.buf, inbox := rest }

/-- The host adds a command behind those it already has to hand over (log 14). -/
def State.submit (s : State) (c : HostCommand) : State := { s with inbox := s.inbox ++ [c] }

end Sys2Proof.Machine
end

