-- ==== Sys2Proof/Machine/Operands.lean ====
section
/-! DEFINITION. What commands make of their operands: buffer bytes, the character code and ENCODE, the number split,
the duty (30_encoding.md R52, 40_encoder.md). -/

namespace Sys2Proof.Machine

/-- The byte at a buffer index of a command whose `length` operand is given. An index the caller did not supply
(`k ≥ length`, or past the presented buffer) has any value (20_memory.md R30, 42_print_commands.md R76, U3; log 8), in each
instance on its own (log 32). -/
def bufByte (s : State) (length k : Nat) : Byte :=
  match if k < length then s.buf.read k else none with
  | some b => b
  | none => Config.freeByte s.freeStream s.freeDraws k

/-- `dot = code & 0x80` (40_encoder.md R61). -/
def dotOf (code : Byte) : Byte := code &&& 0x80#8

/-- `v = code & 0x7F` (40_encoder.md R61). -/
def charValue (code : Byte) : Nat := (code &&& 0x7F#8).toNat

/-- A character value has seven bits (40_encoder.md R63). -/
theorem charValue_lt (code : Byte) : charValue code < 128 :=
  Nat.lt_of_le_of_lt (by rw [charValue, BitVec.toNat_and]; exact Nat.and_le_right) (by decide : 127 < 128)

/-- The ROM index: 0 when `v < 32`, else `v − 32`; always 0 to 95 (40_encoder.md R61, 20_memory.md R29). -/
def romIndex (code : Byte) : Fin 96 :=
  if charValue code < 32 then 0 else ⟨charValue code - 32, by have := charValue_lt code; omega⟩

/-- ENCODE over any table (40_encoder.md R61, R60). -/
def encodeWith (rom : Fin 96 → Byte) (code : Byte) : Byte := rom (romIndex code) ||| dotOf code

/-- ENCODE (40_encoder.md R61). -/
def encodeChar (code : Byte) : Byte := encodeWith romRead code

/-- `value & 0xFF` (42_print_commands.md R73). -/
def lowByte (value : BitVec 16) : Byte := (value &&& 0xFF#16).setWidth 8

/-- `(value >> 8) & 0xFF` (42_print_commands.md R73). -/
def highByte (value : BitVec 16) : Byte := ((value >>> 8) &&& 0xFF#16).setWidth 8

/-- The PWM duty `255 − level` (44_enable_brightness.md R89); it never wraps (40_encoder.md R63). -/
def dutyOf (level : Byte) : Byte := 255#8 - level

/-- The buffer index PRINT_TEXT reads at loop index `i` (42_print_commands.md R71). -/
def textIndex (invert : Bool) (n i : Nat) : Nat := if invert then i else n - 1 - i

/-- The patterns of PRINT_TEXT in the order they are shifted (42_print_commands.md R71). -/
def textPatterns (s : State) (invert : Bool) (length : Nat) : List Byte :=
  (List.range s.config.n).map fun i => encodeChar (bufByte s length (textIndex invert s.config.n i))

/-- The patterns of PRINT_NUMBER: the low byte, then the high byte, `min(N, 2)` of them (42_print_commands.md R73). -/
def numberPatterns (n : Nat) (value : BitVec 16) : List Byte :=
  [lowByte value, highByte value].take (min n 2)

/-- The patterns of PRINT_RAW: index `N − 1` down to 0 (42_print_commands.md R75). -/
def rawPatterns (s : State) (length : Nat) : List Byte :=
  (List.range s.config.n).map fun j => bufByte s length (s.config.n - 1 - j)

end Sys2Proof.Machine
end

