-- ==== Sys2Proof/Machine/Enable.lean ====
section
/-! DEFINITION. The commands that drive the enable line outside a mode sequence (44_enable_brightness.md). -/

namespace Sys2Proof.Machine

/-- The event list of DISPLAY_ENABLE (R86); nothing at all without an enable line (R88, D20; log 18). -/
def planDisplayEnable (s : State) : Plan :=
  if s.hasOE then ⟨[.oeDown], .setFlag .enabled, 0⟩ else .nothing

/-- DISPLAY_ENABLE (R86). -/
def execDisplayEnable (s : State) : Host.Outcome State Fault Refusal := s.issue planDisplayEnable

/-- The event list of DISPLAY_DISABLE (R87); nothing at all without an enable line (R88, D20; log 18). -/
def planDisplayDisable (s : State) : Plan :=
  if s.hasOE then ⟨[.oeUp], .setFlag .disabled, 0⟩ else .nothing

/-- DISPLAY_DISABLE (R87). -/
def execDisplayDisable (s : State) : Host.Outcome State Fault Refusal := s.issue planDisplayDisable

/-- The event list of SET_BRIGHTNESS (R89): the PWM write, or the diagnostic without an enable line (R90). -/
def planSetBrightness (level : Byte) (s : State) : Plan :=
  if s.hasOE then ⟨[.pwm (dutyOf level)], .keep, 0⟩ else ⟨[.diag], .keep, 0⟩

/-- SET_BRIGHTNESS (R89). -/
def execSetBrightness (level : Byte) (s : State) : Host.Outcome State Fault Refusal :=
  s.issue (planSetBrightness level)

end Sys2Proof.Machine
end

