-- ==== Sys2Proof/Machine/Mode.lean ====
section
/-! DEFINITION. The mode transitions (43_mode_control.md). -/

namespace Sys2Proof.Machine

/-- The event list of ENTER_SPECIAL_MODE (R80); nothing at all without an enable line (R82). -/
def planEnterSpecialMode (s : State) : Plan :=
  if s.hasOE then ⟨specialSequence, .special, 0⟩ else .nothing

/-- ENTER_SPECIAL_MODE (R80). -/
def execEnterSpecialMode (s : State) : Host.Outcome State Fault Refusal := s.issue planEnterSpecialMode

/-- What ENTER_NORMAL_MODE emits after its sequence: the event of the inner DISPLAY_ENABLE when the flag was ENABLED
before the command (R81). -/
def restoreEnable (was : EnableState) (s : State) : List Event :=
  match was with
  | .enabled => (planDisplayEnable s).events
  | .disabled => []

/-- The event list of ENTER_NORMAL_MODE (R81); nothing at all without an enable line (R82). -/
def planEnterNormalMode (s : State) : Plan :=
  if s.hasOE then ⟨normalSequence ++ restoreEnable s.enable s, .normal s.enable, 0⟩ else .nothing

/-- ENTER_NORMAL_MODE (R81). -/
def execEnterNormalMode (s : State) : Host.Outcome State Fault Refusal := s.issue planEnterNormalMode

end Sys2Proof.Machine
end

