-- ==== Sys2Proof/Machine/Print.lean ====
section
/-! DEFINITION. The data-moving commands (42_print_commands.md): one frame each, neither the flag, the enable line nor
the configuration touched, the same with or without an enable line. -/

namespace Sys2Proof.Machine

/-- The event list of PRINT_TEXT (R71); it reads `BUF`, one draw of unspecified bytes (R76). -/
def planPrintText (invert : Bool) (length : Nat) (s : State) : Plan :=
  ⟨frame (textPatterns s invert length), .keep, 1⟩

/-- PRINT_TEXT (R71). -/
def execPrintText (invert : Bool) (length : Nat) (s : State) : Host.Outcome State Fault Refusal :=
  s.issue (planPrintText invert length)

/-- The event list of PRINT_NUMBER (R73): no encoder. -/
def planPrintNumber (value : BitVec 16) (s : State) : Plan :=
  ⟨frame (numberPatterns s.config.n value), .keep, 0⟩

/-- PRINT_NUMBER (R73, R74). -/
def execPrintNumber (value : BitVec 16) (s : State) : Host.Outcome State Fault Refusal :=
  s.issue (planPrintNumber value)

/-- The event list of PRINT_RAW (R75); it reads `BUF`, one draw of unspecified bytes (R76). -/
def planPrintRaw (length : Nat) (s : State) : Plan :=
  ⟨frame (rawPatterns s length), .keep, 1⟩

/-- PRINT_RAW (R75). -/
def execPrintRaw (length : Nat) (s : State) : Host.Outcome State Fault Refusal :=
  s.issue (planPrintRaw length)

end Sys2Proof.Machine
end

