-- ==== Sys2Proof/Machine/SelfTest.lean ====
section
/-! DEFINITION. SELF_TEST (45_selftest.md): named by the source, not specified. -/

namespace Sys2Proof.Machine

/-- SELF_TEST decodes and is refused: the spec gives no step order, no segment order, no delay and no end state (R92,
D21, U4; log 23). Safe. -/
def execSelfTest (_s : State) : Host.Outcome State Fault Refusal := .refused .selfTestNotSpecified

end Sys2Proof.Machine
end

