-- ==== Sys2Proof/Machine/Dispatch.lean ====
section
/-! DEFINITION. One arm per command: the call of its meaning. -/

namespace Sys2Proof.Machine

def exec (i : Instr) (s : State) : Host.Outcome State Fault Refusal :=
  match i with
  | .printText invert length => Sys2Proof.Machine.execPrintText invert length s
  | .printNumber value => Sys2Proof.Machine.execPrintNumber value s
  | .printRaw length => Sys2Proof.Machine.execPrintRaw length s
  | .displayEnable => Sys2Proof.Machine.execDisplayEnable s
  | .displayDisable => Sys2Proof.Machine.execDisplayDisable s
  | .enterNormalMode => Sys2Proof.Machine.execEnterNormalMode s
  | .enterSpecialMode => Sys2Proof.Machine.execEnterSpecialMode s
  | .setBrightness level => Sys2Proof.Machine.execSetBrightness level s
  | .selfTest => Sys2Proof.Machine.execSelfTest s

end Sys2Proof.Machine
end

