-- ==== Sys2Proof/Machine/Fetch.lean ====
section
/-! DEFINITION. Taking a command from the host: the block fetches nothing, the host hands it one word at a time
(10_state.md R19, 70_reset_and_hazards.md R122; log 14). -/

namespace Sys2Proof.Machine

/-- The command the block reads from a presented word, or the refusal of a word that is no command (30_encoding.md
R54; log 15). -/
def readCommand (c : HostCommand) : Except Refusal Instr :=
  match decode c.word with
  | .ok i => .ok i
  | .error why => .error (.notACommand why)

/-- What the end of a command leaves: the block keeps no copy of the buffer (20_memory.md R30). -/
def afterCommand : Host.Outcome State Fault Refusal → Host.Outcome State Fault Refusal
  | .next s => .next s.dropBuffer
  | .fault r => .fault r
  | .refused r => .refused r

/-- `s` with the command of an opcode-table word, and the bytes `s` has in `BUF`, first among those the host will hand
over, and the sequencer idle, so that it is accepted next. -/
def State.handFirst (s : State) (nbits w : Nat) : State :=
  { s with seq := .idle, inbox := ⟨tableWord nbits w, s.buf⟩ :: s.inbox }

end Sys2Proof.Machine
end

