-- ==== Sys2Proof/Machine/Step.lean ====
section
/-! DEFINITION. One step of the machine. -/

namespace Sys2Proof.Machine

/-- One step (00_scope.md R11, 10_state.md R20). BUSY: one micro-step of the running command, no command is accepted.
IDLE: the host's next command runs to completion; with none to hand over the block holds its lines
(60_exceptions.md R106). -/
def step (s : State) : Host.Outcome State Fault Refusal :=
  match s.seq with
  | .busy _ _ => .next s.microStep
  | .idle =>
    match s.inbox with
    | [] => .next s
    | c :: rest =>
      match readCommand c with
      | .error r => .refused r
      | .ok i => afterCommand (exec i (s.present c rest))

/-- `s` with the instruction of an opcode-table word as the next command the host hands over (log 14). -/
def State.withFetchWord (s : State) (nbits w : Nat) : State := s.handFirst nbits w

end Sys2Proof.Machine
end

