-- ==== Sys2Proof/Machine/Assembler.lean ====
section
/-! DEFINITION. The one-line syntax of 30_encoding.md R56 (the spec's decision D17, log 30) as data, and the command word
and buffer each line stands for, from the formulas of R56. -/

namespace Sys2Proof.Machine

/-- A buffer element: a number, or a quoted character with or without the trailing full stop of the dot flag (R56). -/
inductive AsmByte where
  | number (b : Byte)
  | quoted (ch : Char) (dot : Bool)
deriving DecidableEq, Repr

/-- The byte of a buffer element: `'1'` is `0x31`, `'1'.` is `0xB1` (R56). -/
def AsmByte.toByte : AsmByte → Byte
  | .number b => b
  | .quoted ch dot => BitVec.ofNat 8 ch.toNat ||| (if dot then 0x80#8 else 0#8)

/-- A line of a program, by its mnemonic (R56). The `config` line is the event CONFIGURE and no command. -/
inductive AsmLine where
  | ptext (bytes : List AsmByte) (len : Nat) (inv : Bool)
  | pnum (value : BitVec 16)
  | praw (bytes : List AsmByte) (len : Nat)
  | den
  | ddis
  | mnorm
  | mspec
  | bright (level : Byte)
  | stest
deriving DecidableEq, Repr

/-- The command word of a line (R56). -/
def AsmLine.word : AsmLine → CommandWord
  | .ptext _ len inv => 0x10000000#32 ||| ((BitVec.ofBool inv).setWidth 32 <<< 16) ||| BitVec.ofNat 32 len
  | .pnum value => 0x20000000#32 ||| value.setWidth 32
  | .praw _ len => 0x30000000#32 ||| BitVec.ofNat 32 len
  | .den => 0x40000000#32
  | .ddis => 0x50000000#32
  | .mnorm => 0x60000000#32
  | .mspec => 0x70000000#32
  | .bright level => 0x80000000#32 ||| level.setWidth 32
  | .stest => 0x90000000#32

/-- The content of `BUF` presented with a line; a command without buffer presents none (R56, R51). -/
def AsmLine.buf : AsmLine → Memory
  | .ptext bytes _ _ => Memory.ofBytes (bytes.map AsmByte.toByte)
  | .praw bytes _ => Memory.ofBytes (bytes.map AsmByte.toByte)
  | .pnum _ => []
  | .den => []
  | .ddis => []
  | .mnorm => []
  | .mspec => []
  | .bright _ => []
  | .stest => []

/-- What the host hands over for a line. -/
def AsmLine.command (l : AsmLine) : HostCommand := ⟨l.word, l.buf⟩

/-- The command a line names (30_encoding.md R53, R56). -/
def AsmLine.instr : AsmLine → Instr
  | .ptext _ len inv => .printText inv len
  | .pnum value => .printNumber value
  | .praw _ len => .printRaw len
  | .den => .displayEnable
  | .ddis => .displayDisable
  | .mnorm => .enterNormalMode
  | .mspec => .enterSpecialMode
  | .bright level => .setBrightness level
  | .stest => .selfTest

end Sys2Proof.Machine
end

