-- ==== Sys2Proof/Machine/Collaborator.lean ====
section
/-! DEFINITION. The platform interface behind the ports (20_memory.md R33): which operation on which physical pin each
event of the trace is. The platform itself is outside the block (00_scope.md R6). -/

namespace Sys2Proof.Machine

/-- The collaborator's operations; `delay` is used by SELF_TEST only, which is not specified (20_memory.md R33). Of
`writePWM` only the duty is modelled (R33, U7; log 20). -/
inductive CollabCall where
  | configureOutput (pin : PinId)
  | writeDigital (pin : PinId) (level : Bit)
  | writePWM (pin : PinId) (duty : Byte)
  | delay (milliseconds : Nat)
deriving DecidableEq, Repr

/-- The call an event is: the write goes to the pin the configuration holds for its role (20_memory.md R31). `DIAG` is
no pin operation; a role without a pin has no port to write. -/
def State.callOf (s : State) : Event → Option CollabCall
  | .write p b => (s.pinOf p).map fun pin => .writeDigital pin b
  | .pwm d => (s.pinOf .oe).map fun pin => .writePWM pin d
  | .diag => none

/-- The calls CONFIGURE makes: every port of the instance becomes an output (70_reset_and_hazards.md R109, D12). DESIGN
CHOICE (log 33): that there is one call for each port, and that they come in the order data, clock, latch, enable; the
spec fixes neither (91_not_in_source.md N5). Unsafe for claims about that order. -/
def State.configureCalls (s : State) : List CollabCall :=
  s.outputs.filterMap fun p => (s.pinOf p).map .configureOutput

/-- Every call since construction, oldest first; the order of CONFIGURE's own calls is the model's (log 33). -/
def State.calls (s : State) : List CollabCall := s.configureCalls ++ s.trace.filterMap s.callOf

end Sys2Proof.Machine
end

