-- ==== Sys2Proof/Machine/Launch.lean ====
section
/-! DEFINITION. Several instances of the block (60_exceptions.md R105, 70_reset_and_hazards.md R116): each its own
state, nothing shared but the immutable ROM. -/

namespace Sys2Proof.Machine

/-- The pins a construction names. -/
def pinsNamed (c : Construction) : List PinId :=
  [c.dataPin, c.clockPin, c.latchPin] ++ c.enablePin.toList

/-- No two instances name the same pin (R105; log 22). -/
def disjointPins (cs : List Construction) : Bool :=
  decide (cs.Pairwise fun a b => ∀ p ∈ pinsNamed a, p ∉ pinsNamed b)

/-- The launch of a list of instances: refused when two of them share a pin (93_implementation_defined.md U1). Each
draws its unspecified values from a stream of its own, the number of its place in the list (log 32). -/
def launch (maxChips : Nat) (cs : List Construction) : Host.Outcome (List State) Fault Refusal :=
  if disjointPins cs then .next (cs.mapIdx fun k c => State.configure k maxChips c) else .refused .sharedPins

/-- One step of instance `k`; an index without an instance steps nothing. -/
def stepInstance (k : Nat) (ss : List State) : Host.Outcome (List State) Fault Refusal :=
  match ss[k]? with
  | none => .next ss
  | some s =>
    match step s with
    | .next t => .next (ss.set k t)
    | .fault r => .fault r
    | .refused r => .refused r

end Sys2Proof.Machine
end

