-- ==== Sys2Proof/Machine/MicroStep.lean ====
section
/-! DEFINITION. The micro-step form of a command (10_state.md R20): which event list and update acceptance computes. The
step of Machine/Step.lean runs a command at once; both forms are the same machine (log 7). -/

namespace Sys2Proof.Machine

/-- What acceptance of a command computes from `N`, `HAS_OE`, `enable_state` and the operands (10_state.md R20); none
for SELF_TEST, which has no specification (45_selftest.md R92). -/
def planOf : Instr → State → Option Plan
  | .printText invert length, s => some (planPrintText invert length s)
  | .printNumber value, s => some (planPrintNumber value s)
  | .printRaw length, s => some (planPrintRaw length s)
  | .displayEnable, s => some (planDisplayEnable s)
  | .displayDisable, s => some (planDisplayDisable s)
  | .enterNormalMode, s => some (planEnterNormalMode s)
  | .enterSpecialMode, s => some (planEnterSpecialMode s)
  | .setBrightness level, s => some (planSetBrightness level s)
  | .selfTest, _ => none

end Sys2Proof.Machine
end

