-- ==== Sys2Proof/Safety.lean ====
section
/-! DEFINITION. What holds of a good run, in the terms the statements use: the shape of event lists, the invariants at
command boundaries, and the end of a run. -/

namespace Sys2Proof.Machine

/-- Where in a pulse a reader of the trace stands (41_shift_primitives.md R68). -/
inductive Phase where
  /-- No line is in a pulse. -/
  | rest
  /-- `SDI` was just written: a clock rise must follow. -/
  | dataSet
  /-- `CLK` is high outside a latch pulse. -/
  | clkHigh
  /-- `LE` is high and no clock pulse has come inside it. -/
  | latchHigh
  /-- `LE` and `CLK` are high. -/
  | latchClk
  /-- `LE` is high and one clock pulse has passed. -/
  | latchPulsed
deriving DecidableEq, Repr

/-- The phase after one more event, none where the event breaks R68: between a clock rise and its fall nothing else
stands; between a latch rise and its fall stands nothing or one clock pulse; `SDI` is written only right before a
clock rise; `OE` and `LE` are written only while `CLK` is low. -/
def Phase.next : Phase → Event → Option Phase
  | .rest, .write .sdi _ => some .dataSet
  | .rest, .write .clk true => some .clkHigh
  | .rest, .write .le true => some .latchHigh
  | .rest, .write .oe _ => some .rest
  | .rest, .pwm _ => some .rest
  | .rest, .diag => some .rest
  | .dataSet, .write .clk true => some .clkHigh
  | .clkHigh, .write .clk false => some .rest
  | .latchHigh, .write .le false => some .rest
  | .latchHigh, .write .clk true => some .latchClk
  | .latchClk, .write .clk false => some .latchPulsed
  | .latchPulsed, .write .le false => some .rest
  | _, _ => none

/-- The phase after a list of events, none where one of them breaks R68. -/
def Phase.after : Phase → List Event → Option Phase
  | ph, [] => some ph
  | ph, e :: es =>
    match ph.next e with
    | none => none
    | some ph' => Phase.after ph' es

/-- An event list of complete pulses in the shape of R68. -/
def wellShaped (es : List Event) : Prop := Phase.after .rest es = some .rest

/-- How many events of a list are the given one. -/
def eventCount (e : Event) (es : List Event) : Nat := es.countP fun x => decide (x = e)

/-- What `OE` and `LE` hold at each rising clock edge of an event list, oldest first (30_encoding.md R50). -/
def edgeLevels : Pins → List Event → List (Option OeDrive × Bit)
  | _, [] => []
  | p, e :: es =>
    (if e = .write .clk true ∧ p.clk = false then [(p.oe, p.le)] else []) ++ edgeLevels (p.apply e) es

/-- The command boundary that a state has reached or is running towards is a good one (10_state.md R14, R26): the
chip count is within its bounds, the clock and latch lines are low, the `OE` register exists exactly when there is an
enable line, and agrees with the flag while it holds a level. Without an enable line the flag keeps its reset value. -/
structure State.GoodBoundary (s : State) : Prop where
  atLeastMin : Config.minChips ≤ s.config.n
  atMostMax : s.config.n ≤ Config.maxChips
  clkLow : s.pins.clk = false
  leLow : s.pins.le = false
  oeExists : s.pins.oe.isSome = s.hasOE
  oeAgrees : ∀ b, s.pins.oe = some (.level b) → b = s.enable.oeLevel
  noLine : s.hasOE = false → s.enable = resetEnable
  outWidth : s.chips.out.length = 8 * s.config.n

/-- The trace tells the registers: they hold the last level written to them since reset (10_state.md R16, R24), and
its pulses are whole (41_shift_primitives.md R68). -/
structure State.GoodTrace (s : State) : Prop where
  pinsReplay : s.pins = (resetPins s.hasOE).applyAll s.trace
  shaped : wellShaped s.trace

/-- Every buffer is in canonical form, and between commands the block holds none (20_memory.md R30). -/
structure State.GoodBuffers (s : State) : Prop where
  bufWf : s.buf.wf
  inboxWf : ∀ c ∈ s.inbox, c.buf.wf
  noneKept : s.seq = .idle → s.buf = []

/-- The invariant: at the boundary the machine is at, or reaches when the running command has emitted its last event,
everything above holds. -/
structure State.Inv (s : State) : Prop where
  boundary : s.settle.GoodBoundary
  history : s.settle.GoodTrace
  buffers : s.GoodBuffers

/-- `k` steps, stopping at the first refusal: a run of the machine (70_reset_and_hazards.md R124). -/
def runSteps : Nat → State → Host.Outcome State Fault Refusal
  | 0, s => .next s
  | k + 1, s =>
    match step s with
    | .next t => runSteps k t
    | .fault r => .fault r
    | .refused r => .refused r

/-- The end of a run: the last command has emitted its last event (70_reset_and_hazards.md R124). -/
def State.runOver (s : State) : Prop := s.seq = .idle ∧ s.inbox = []

/-- The same state but for what belongs to the attached chips (10_state.md R25). -/
def State.sameBlock (s t : State) : Prop := { s with chips := t.chips } = t

end Sys2Proof.Machine
end

