-- ==== Sys2Proof/Certificates/Slice0/Obligations.lean ====
section
/-! DEFINITION. The statements for the provers. Each says which rule of spec/ it formalises; "the spec's decision Dn"
marks what the spec decides and its source leaves open. -/

open Sys2Proof Sys2Proof.Machine

/-! ### Construction and the step -/

/-- CONFIGURE sets every register (70_reset_and_hazards.md R107, R110; 10_state.md R27). The flag and the levels are the
spec's decisions D7 and D12 (log 5, 6), the empty trace D11; the stream of free values is the model's own (log 32). -/
def Obligations.ConstructionSetsEveryRegister : Prop :=
  ∀ (stream maxChips : Nat) (c : Construction),
    (State.configure stream maxChips c).config =
      { n := clampChips Config.minChips maxChips c.requestedChips, dataPin := c.dataPin, clockPin := c.clockPin,
        latchPin := c.latchPin, enablePin := c.enablePin } ∧
    ((State.configure stream maxChips c).hasOE = true ↔ ∃ p, c.enablePin = some p) ∧
    (State.configure stream maxChips c).enable = .disabled ∧
    (State.configure stream maxChips c).pins =
      { sdi := false, clk := false, le := false,
        oe := match c.enablePin with | some _ => some (.level true) | none => none } ∧
    (State.configure stream maxChips c).seq = .idle ∧
    (State.configure stream maxChips c).trace = [] ∧
    State.reset = State.configure 0 Config.maxChips Config.construction

/-- The chip-count clamp (70_reset_and_hazards.md R108, 40_encoder.md R63): to the nearest bound, for counts of any sign;
constructing with 0 gives MIN_CHIPS, which is 1 by the spec's decision D1 (log 2). -/
def Obligations.ChipCountIsClampedToNearestBound : Prop :=
  ∀ (lo hi : Nat) (r : Int), lo ≤ hi →
    (r < (lo : Int) → clampChips lo hi r = lo) ∧
    ((hi : Int) < r → clampChips lo hi r = hi) ∧
    ((lo : Int) ≤ r → r ≤ (hi : Int) → (clampChips lo hi r : Int) = r) ∧
    lo ≤ clampChips lo hi r ∧ clampChips lo hi r ≤ hi ∧
    (∀ (stream : Nat) (c : Construction), c.requestedChips = 0 → (State.configure stream hi c).config.n = 1)

/-- A step of an idle block runs the command the host hands over (00_scope.md R11, 10_state.md R20, 20_memory.md R30):
the buffer is presented with the command and not kept after it. -/
def Obligations.StepRunsTheDecodedCommand : Prop :=
  ∀ (s : State) (c : HostCommand) (rest : List HostCommand) (i : Instr),
    s.seq = .idle → s.inbox = c :: rest → decode c.word = .ok i →
    (∀ t, exec i { s with buf := c.buf, inbox := rest } = .next t → step s = .next { t with buf := [] }) ∧
    (∀ r, exec i { s with buf := c.buf, inbox := rest } = .refused r → step s = .refused r)

/-- An opcode-table word given to withFetchWord is the next command of the block, whatever it was doing. -/
def Obligations.WithFetchWordIsRunNext : Prop :=
  ∀ (s : State) (nbits w : Nat) (i : Instr), decodeTableWord nbits w = some i →
    ∀ t, exec i { s with seq := .idle } = .next t → step (s.withFetchWord nbits w) = .next { t with buf := [] }

/-- Between commands the block holds its lines (60_exceptions.md R106). -/
def Obligations.IdleBlockHoldsItsLines : Prop :=
  ∀ s : State, s.seq = .idle → s.inbox = [] → step s = .next s

/-- While a command runs, a step is one micro-step: it emits the head event, and after the last one the state update
takes effect and the command's buffer is dropped (10_state.md R20, 20_memory.md R30, the spec's decision D9; log 7, 13);
no command is taken from the host. -/
def Obligations.BusyBlockEmitsOneEventAStep : Prop :=
  ∀ (s : State) (f : Finish),
    (s.seq = .busy [] f → ∃ t : State, step s = .next t ∧ t.seq = .idle ∧ t.trace = s.trace ∧ t.pins = s.pins ∧
      t.enable = f.enable.getD s.enable ∧ t.inbox = s.inbox ∧ t.buf = []) ∧
    (∀ e es, s.seq = .busy (e :: es) f → ∃ t : State, step s = .next t ∧ t.seq = .busy es f ∧ t.trace = s.trace ++ [e] ∧
      t.pins = s.pins.apply e ∧ t.enable = s.enable ∧ t.inbox = s.inbox ∧ t.buf = s.buf)

/-! ### The command word (the spec's decision D15) -/

/-- Words written out from 30_encoding.md R51, R53 decode to their commands (95_test_vectors.md section 2.9). -/
def Obligations.SpecWordsDecode : Prop :=
  decode 0b00010000000000010000000000000011#32 = .ok (.printText true 3) ∧
  decode 0b00100000000000001011111011101111#32 = .ok (.printNumber 0xBEEF) ∧
  decode 0b00110000000000000000000000000010#32 = .ok (.printRaw 2) ∧
  decode 0b01000000000000000000000000000000#32 = .ok .displayEnable ∧
  decode 0b01010000000000000000000000000000#32 = .ok .displayDisable ∧
  decode 0b01100000000000000000000000000000#32 = .ok .enterNormalMode ∧
  decode 0b01110000000000000000000000000000#32 = .ok .enterSpecialMode ∧
  decode 0b10000000000000000000000011001000#32 = .ok (.setBrightness 200) ∧
  decode 0b10010000000000000000000000000000#32 = .ok .selfTest

/-- Decoding the word of a well-formed command gives the command back, every operand whole (30_encoding.md R51 to R53,
the spec's decision D15). -/
def Obligations.DecodeOfEncode : Prop :=
  ∀ i : Instr, i.wellFormed = true → decode (encode i) = .ok i

/-- A word that decodes is the word of a well-formed command: each command has one word (30_encoding.md R51, R55, the
spec's decision D15). -/
def Obligations.EncodeOfDecode : Prop :=
  ∀ (w : CommandWord) (i : Instr), decode w = .ok i → i.wellFormed = true ∧ encode i = w

/-- Exactly the words of 30_encoding.md R54 (b) are refused (the spec's decisions D15, D16): a reserved opcode, a
non-zero `zero` field, `inv` outside PRINT_TEXT, `arg` in a command without operand, `arg[15:8]` in SET_BRIGHTNESS. -/
def Obligations.RefusedWordsAreTheUnusedOnes : Prop :=
  ∀ w : CommandWord,
    (∃ e, decode w = .error e) ↔
      (w >>> 28 = 0#32 ∨ 10#32 ≤ w >>> 28 ∨ w &&& 0x0FFE0000#32 ≠ 0#32 ∨
        (w >>> 28 ≠ 1#32 ∧ w.getLsbD 16 = true) ∨
        ((w >>> 28 = 4#32 ∨ w >>> 28 = 5#32 ∨ w >>> 28 = 6#32 ∨ w >>> 28 = 7#32 ∨ w >>> 28 = 9#32) ∧
          w &&& 0xFFFF#32 ≠ 0#32) ∨
        (w >>> 28 = 8#32 ∧ w &&& 0xFF00#32 ≠ 0#32))

/-- A word that is no command is refused by the step (30_encoding.md R54 b, the spec's decision D16; log 15). -/
def Obligations.StepRefusesWordThatIsNoCommand : Prop :=
  ∀ (s : State) (c : HostCommand) (rest : List HostCommand) (e : DecodeError),
    s.seq = .idle → s.inbox = c :: rest → decode c.word = .error e → step s = .refused (.notACommand e)

/-- The word of an assembler line (30_encoding.md R56, the spec's decision D17; log 30) decodes to the command the line
names, for a length of 16 bits. -/
def Obligations.AssemblerLineIsItsCommand : Prop :=
  ∀ l : AsmLine, l.instr.wellFormed = true → decode l.command.word = .ok l.instr ∧ encode l.instr = l.command.word

/-! ### ENCODE and the wire -/

/-- ENCODE (40_encoder.md R61): masked values below 32 read entry 0, the others entry `v − 32`, and bit 7 is put back;
with the worked example. -/
def Obligations.EncodeLooksUpTheTable : Prop :=
  (∀ (rom : Fin 96 → Byte) (code : Byte),
    ((code &&& 0x7F#8).toNat < 32 → encodeWith rom code = rom 0 ||| (code &&& 0x80#8)) ∧
    (∀ k : Fin 96, (code &&& 0x7F#8).toNat = k.val + 32 → encodeWith rom code = rom k ||| (code &&& 0x80#8))) ∧
  (∀ code : Byte, encodeChar code = encodeWith romRead code) ∧
  (∀ rom : Fin 96 → Byte, rom 17 = 0x21#8 → encodeWith rom 0x31#8 = 0x21#8 ∧ encodeWith rom 0xB1#8 = 0xA1#8)

/-- The dot bit passes through ENCODE (40_encoder.md R62 items 2 to 4). -/
def Obligations.EncodeKeepsTheDotApart : Prop :=
  ∀ c : Byte,
    encodeChar (c ||| 0x80#8) = encodeChar c ||| 0x80#8 ∧
    (c.toNat < 128 → encodeChar c &&& 0x80#8 = 0#8) ∧
    encodeChar c &&& 0x7F#8 = encodeChar (c &&& 0x7F#8) ∧
    encodeChar c &&& 0x80#8 = c &&& 0x80#8

/-- The wire order dot, A, B, C, E, G, F, D (30_encoding.md R47), and WIRE8 is a bijection (R48). -/
def Obligations.WireOrderIsAPermutation : Prop :=
  (∀ p : Byte, wire8 p =
    [p.getLsbD 7, p.getLsbD 4, p.getLsbD 5, p.getLsbD 0, p.getLsbD 2, p.getLsbD 6, p.getLsbD 3, p.getLsbD 1]) ∧
  (∀ p q : Byte, wire8 p = wire8 q → p = q) ∧
  (∀ bits : List Bit, bits.length = 8 → ∃ p : Byte, wire8 p = bits)

/-- CLOCK_PULSE (41_shift_primitives.md R64): two writes with nothing between them, `CLK` ends low, the flag untouched;
from a low line it makes exactly one rising edge. -/
def Obligations.ClockPulseRaisesThenLowersTheClock : Prop :=
  ∀ s : State,
    (s.emitAll clockPulse).trace = s.trace ++ [.clockUp, .clockDown] ∧
    (s.emitAll clockPulse).pins = { s.pins with clk := false } ∧
    (s.emitAll clockPulse).enable = s.enable ∧
    (s.pins.clk = false → edgeLevels s.pins clockPulse = [(s.pins.oe, s.pins.le)])

/-- SHIFT_PATTERN (41_shift_primitives.md R66): 24 events, the eight bits in wire order each followed by one clock
pulse; `SDI` ends at the D bit, `CLK` low; `LE`, `OE` and the flag are not written. -/
def Obligations.ShiftPatternEmitsTwentyFourEvents : Prop :=
  ∀ (p : Byte) (s : State),
    shiftPattern p =
      [.data (p.getLsbD 7), .clockUp, .clockDown, .data (p.getLsbD 4), .clockUp, .clockDown,
       .data (p.getLsbD 5), .clockUp, .clockDown, .data (p.getLsbD 0), .clockUp, .clockDown,
       .data (p.getLsbD 2), .clockUp, .clockDown, .data (p.getLsbD 6), .clockUp, .clockDown,
       .data (p.getLsbD 3), .clockUp, .clockDown, .data (p.getLsbD 1), .clockUp, .clockDown] ∧
    (s.emitAll (shiftPattern p)).trace = s.trace ++ shiftPattern p ∧
    (s.emitAll (shiftPattern p)).pins = { s.pins with sdi := p.getLsbD 1, clk := false } ∧
    (s.emitAll (shiftPattern p)).enable = s.enable

/-- LATCH (41_shift_primitives.md R67) commits what was shifted: two writes, `LE` ends low, nothing else is written; a
pattern shifted into a one-chip chain and latched is what the chip shows. -/
def Obligations.LatchCommitsTheShiftedBits : Prop :=
  ∀ (s : State) (p : Byte),
    (s.emitAll latchPulse).trace = s.trace ++ [.latchUp, .latchDown] ∧
    (s.emitAll latchPulse).pins = { s.pins with le := false } ∧
    (s.emitAll latchPulse).enable = s.enable ∧
    (s.config.n = 1 → s.pins.clk = false → s.pins.le = false →
      ((s.emitAll (shiftPattern p)).emitAll latchPulse).chips.shown 0 = p)

/-! ### Print commands -/

/-- The byte a print command reads at an index (20_memory.md R30, 42_print_commands.md R76): the caller's where it was
supplied, else any value of the instance's own (93_implementation_defined.md U3; log 8, the model's choice among the two
treatments; log 32). -/
def Obligations.BufferReadsSuppliedBytes : Prop :=
  ∀ (s : State) (bs : List Byte) (length k : Nat), s.buf = Memory.ofBytes bs →
    (∀ b, k < length → bs[k]? = some b → bufByte s length k = b) ∧
    (length ≤ k ∨ bs.length ≤ k → bufByte s length k = Config.freeByte s.freeStream s.freeDraws k)

/-- PRINT_TEXT (42_print_commands.md R71): `N` encoded bytes in the order of `invert`, one latch; the registers, the trace
and the chips after it; everything else as before. Bytes the caller did not supply are free values (log 8). What the chips
hold and show is the observer's (20_memory.md R41, R42; D14, G2, G3; log 11, PRESUMED; log 10 for bits older than reset). -/
def Obligations.PrintTextSendsEncodedFrame : Prop :=
  ∀ (s : State) (invert : Bool) (length : Nat) (patterns : List Byte),
    s.seq = .idle → s.pins.clk = false → s.pins.le = false → 0 < s.config.n →
    patterns = (List.range s.config.n).map
      (fun i => encodeChar (bufByte s length (if invert then i else s.config.n - 1 - i))) →
    exec (.printText invert length) s = .next
      { s with
        pins := { s.pins with sdi := (encodeChar (bufByte s length (if invert then s.config.n - 1 else 0))).getLsbD 1 }
        trace := s.trace ++ (patterns.flatMap shiftPattern ++ [.latchUp, .latchDown])
        chips := { s.chips with
          sr := s.chips.sr ++ patterns.flatMap wire8
          out := newestBits s.freeStream (8 * s.config.n) (s.chips.sr ++ patterns.flatMap wire8) }
        freeDraws := s.freeDraws + 1 }

/-- PRINT_NUMBER (42_print_commands.md R73, R74): the low byte, and on a chain of two or more the high byte, never more,
then one latch; no encoder; everything else as before. What the chips hold and show is the observer's (20_memory.md R41,
R42; D14, G2, G3; log 11, PRESUMED; log 10 for bits older than reset). -/
def Obligations.PrintNumberSendsLowByteFirst : Prop :=
  ∀ (s : State) (value : BitVec 16) (patterns : List Byte),
    s.seq = .idle → s.pins.clk = false → s.pins.le = false → 0 < s.config.n →
    patterns = (if s.config.n = 1 then [value.extractLsb' 0 8] else [value.extractLsb' 0 8, value.extractLsb' 8 8]) →
    exec (.printNumber value) s = .next
      { s with
        pins := { s.pins with sdi := value.getLsbD (if s.config.n = 1 then 1 else 9) }
        trace := s.trace ++ (patterns.flatMap shiftPattern ++ [.latchUp, .latchDown])
        chips := { s.chips with
          sr := s.chips.sr ++ patterns.flatMap wire8
          out := newestBits s.freeStream (8 * s.config.n) (s.chips.sr ++ patterns.flatMap wire8) } }

/-- PRINT_RAW (42_print_commands.md R75): `N` bytes from index `N − 1` down to 0, no encoder, one latch; everything else
as before. Bytes the caller did not supply are free values (log 8). What the chips hold and show is the observer's
(20_memory.md R41, R42; D14, G2, G3; log 11, PRESUMED; log 10 for bits older than reset). -/
def Obligations.PrintRawSendsBufferBackwards : Prop :=
  ∀ (s : State) (length : Nat) (patterns : List Byte),
    s.seq = .idle → s.pins.clk = false → s.pins.le = false → 0 < s.config.n →
    patterns = ((List.range s.config.n).map (bufByte s length)).reverse →
    exec (.printRaw length) s = .next
      { s with
        pins := { s.pins with sdi := (bufByte s length 0).getLsbD 1 }
        trace := s.trace ++ (patterns.flatMap shiftPattern ++ [.latchUp, .latchDown])
        chips := { s.chips with
          sr := s.chips.sr ++ patterns.flatMap wire8
          out := newestBits s.freeStream (8 * s.config.n) (s.chips.sr ++ patterns.flatMap wire8) }
        freeDraws := s.freeDraws + 1 }

/-- The ordering property of PRINT_TEXT (42_print_commands.md R70, R72): the 24 events at chain position `p` are the shift
of the encoded byte `N − 1 − p`, or `p` when inverted; hence byte 0 stands at position `N − 1`, or at position 0. -/
def Obligations.PrintTextChainPositions : Prop :=
  ∀ (s : State) (invert : Bool) (length : Nat), s.seq = .idle →
    ∃ t : State, exec (.printText invert length) s = .next t ∧
      ∀ p, p < s.config.n →
        ((t.trace.drop (s.trace.length + 24 * p)).take 24) =
          shiftPattern (encodeChar (bufByte s length (if invert then p else s.config.n - 1 - p)))

/-- One latch per frame (42_print_commands.md R77): the new events of a print command end with its only two latch events,
every clock rise before them, and none of them writes `OE`. -/
def Obligations.OneLatchPulseEndsEveryFrame : Prop :=
  ∀ (s : State) (i : Instr), s.seq = .idle →
    ((∃ invert length, i = .printText invert length) ∨ (∃ value, i = .printNumber value) ∨
      (∃ length, i = .printRaw length)) →
    ∃ (t : State) (es : List Event), exec i s = .next t ∧ t.trace = s.trace ++ es ++ [.latchUp, .latchDown] ∧
      ∀ e ∈ es, e.port = some .sdi ∨ e.port = some .clk

/-- Only the indices 0 to `N − 1` matter, and `length` not at all once the caller supplied them (42_print_commands.md R71,
R75, R76): two buffers that agree there give the same result. -/
def Obligations.PrintReadsOnlyTheFirstNBytes : Prop :=
  ∀ (s : State) (buf' : Memory) (invert : Bool) (length length' : Nat),
    s.seq = .idle → s.config.n ≤ length → s.config.n ≤ length' →
    (∀ k, k < s.config.n → ∃ b, s.buf.read k = some b ∧ buf'.read k = some b) →
    (∃ t : State, exec (.printText invert length) s = .next t ∧
      exec (.printText invert length') { s with buf := buf' } = .next { t with buf := buf' }) ∧
    (∃ t : State, exec (.printRaw length) s = .next t ∧
      exec (.printRaw length') { s with buf := buf' } = .next { t with buf := buf' })

/-- What the print commands leave alone (42_print_commands.md, 10_state.md R15, R16): the configuration, the flag, the
enable line, the chips' mode, the host's commands and every byte of the buffer. -/
def Obligations.PrintCommandsFrame : Prop :=
  ∀ (s : State) (i : Instr), s.seq = .idle →
    ((∃ invert length, i = .printText invert length) ∨ (∃ value, i = .printNumber value) ∨
      (∃ length, i = .printRaw length)) →
    ∃ t : State, exec i s = .next t ∧ t.config = s.config ∧ t.enable = s.enable ∧ t.pins.oe = s.pins.oe ∧
      t.chips.mode = s.chips.mode ∧ t.inbox = s.inbox ∧ t.seq = .idle ∧ ∀ k, t.buf.read k = s.buf.read k

/-! ### What the chips show (the observer of 20_memory.md R40 to R43, decision D14 and general knowledge G2, G3; log 11) -/

/-- After PRINT_RAW the chip at distance `d` shows buffer byte `d` (20_memory.md R41, R42; 95_test_vectors.md section
2.5). -/
def Obligations.PrintRawShowsTheBuffer : Prop :=
  ∀ (s : State) (length : Nat), s.seq = .idle → s.pins.clk = false → s.pins.le = false →
    ∃ t : State, exec (.printRaw length) s = .next t ∧ ∀ d, d < s.config.n → t.chips.shown d = bufByte s length d

/-- After PRINT_TEXT the chip at distance `d` shows the encoded byte `d`, or `N − 1 − d` when inverted (20_memory.md R41,
R42, 42_print_commands.md R70, R72). -/
def Obligations.PrintTextShowsTheEncodedBuffer : Prop :=
  ∀ (s : State) (invert : Bool) (length : Nat), s.seq = .idle → s.pins.clk = false → s.pins.le = false →
    ∃ t : State, exec (.printText invert length) s = .next t ∧ ∀ d, d < s.config.n →
      t.chips.shown d = encodeChar (bufByte s length (if invert then s.config.n - 1 - d else d))

/-- PRINT_NUMBER on a chain longer than two (90_conflicts.md C4, 95_test_vectors.md P4): the two bytes come first and what
the chips held moves two chips farther. -/
def Obligations.PrintNumberMovesOldContentsTwoChips : Prop :=
  ∀ (s : State) (value : BitVec 16),
    s.seq = .idle → s.pins.clk = false → s.pins.le = false → 2 ≤ s.config.n →
    s.chips.out = newestBits s.freeStream (8 * s.config.n) s.chips.sr →
    ∃ t : State, exec (.printNumber value) s = .next t ∧
      t.chips.shown 0 = value.extractLsb' 8 8 ∧ t.chips.shown 1 = value.extractLsb' 0 8 ∧
      ∀ d, d + 2 < s.config.n → t.chips.shown (d + 2) = s.chips.shown d

/-- The block never depends on the chips (10_state.md R25): two machines that differ only in the observer take steps that
differ only there, for as many steps as one likes. -/
def Obligations.ChipsNeverInfluenceTheBlock : Prop :=
  ∀ (k : Nat) (s s' : State), s.sameBlock s' →
    (∀ t : State, runSteps k s = .next t → ∃ t' : State, runSteps k s' = .next t' ∧ State.sameBlock t t') ∧
    (∀ r : Refusal, runSteps k s = .refused r → runSteps k s' = .refused r)

/-! ### Mode control -/

/-- MODE_PREFIX (43_mode_control.md R79): 11 events, 4 clock pulses, and `OE` is left high. -/
def Obligations.ModePrefixEvents : Prop :=
  modePrefix = [.oeUp, .clockUp, .clockDown, .oeDown, .clockUp, .clockDown, .oeUp, .clockUp, .clockDown, .clockUp,
    .clockDown] ∧
  modePrefix.length = 11 ∧ eventCount .clockUp modePrefix = 4 ∧
  ∀ p : Pins, (p.applyAll modePrefix).oe = some (.level true)

/-- The mode sequences as the chain sees them (30_encoding.md R50): `OE` and `LE` at each rising clock edge, from idle
lines, and `SDI` keeps its level. -/
def Obligations.ModeSequenceEdgeLevels : Prop :=
  ∀ p : Pins, p.clk = false → p.le = false →
    edgeLevels p specialSequence =
      [(some (.level true), false), (some (.level false), false), (some (.level true), false),
       (some (.level true), false), (some (.level true), true), (some (.level true), false)] ∧
    edgeLevels p normalSequence =
      [(some (.level true), false), (some (.level false), false), (some (.level true), false),
       (some (.level true), false), (some (.level true), false), (some (.level true), false),
       (some (.level true), false)] ∧
    (p.applyAll specialSequence).sdi = p.sdi ∧ (p.applyAll normalSequence).sdi = p.sdi

/-- ENTER_SPECIAL_MODE with an enable line (43_mode_control.md R80; counts as in the spec, log 25): the 17 events, `OE`
high, the flag DISABLED whatever it was; the chips end in SPECIAL mode with six copies of the `SDI` level clocked in, the
outputs copied after the fourth (20_memory.md R41 to R43, D14; log 11, 12); everything else as before. -/
def Obligations.EnterSpecialModeSequence : Prop :=
  ∀ s : State, s.seq = .idle → s.hasOE = true → s.pins.clk = false → s.pins.le = false →
    exec .enterSpecialMode s = .next
      { s with
        enable := .disabled
        pins := { s.pins with oe := some (.level true) }
        trace := s.trace ++
          [.oeUp, .clockUp, .clockDown, .oeDown, .clockUp, .clockDown, .oeUp, .clockUp, .clockDown, .clockUp, .clockDown,
           .latchUp, .clockUp, .clockDown, .latchDown, .clockUp, .clockDown]
        chips :=
          { mode := .special
            sr := s.chips.sr ++ List.replicate 6 s.pins.sdi
            out := newestBits s.freeStream (8 * s.config.n) (s.chips.sr ++ List.replicate 4 s.pins.sdi) } }

/-- ENTER_NORMAL_MODE with an enable line (43_mode_control.md R81; counts as in the spec, log 25): 17 events, and `E-` when
the flag was ENABLED; the flag as before, `OE` low when it is ENABLED and high otherwise; the chips end in NORMAL mode
with seven copies of the `SDI` level clocked in (20_memory.md R41, R43, D14; log 11, 12); everything else as before. -/
def Obligations.EnterNormalModeSequence : Prop :=
  ∀ s : State, s.seq = .idle → s.hasOE = true → s.pins.clk = false → s.pins.le = false →
    exec .enterNormalMode s = .next
      { s with
        pins := { s.pins with oe := some (.level (if s.enable = .enabled then false else true)) }
        trace := s.trace ++
          ([.oeUp, .clockUp, .clockDown, .oeDown, .clockUp, .clockDown, .oeUp, .clockUp, .clockDown, .clockUp,
            .clockDown, .clockUp, .clockDown, .clockUp, .clockDown, .clockUp, .clockDown] ++
            (if s.enable = .enabled then [.oeDown] else []))
        chips := { s.chips with mode := .normal, sr := s.chips.sr ++ List.replicate 7 s.pins.sdi } }

/-- Without an enable line both transitions are full no-ops (43_mode_control.md R82). -/
def Obligations.ModeTransitionsNeedAnEnableLine : Prop :=
  ∀ s : State, s.seq = .idle → s.hasOE = false →
    exec .enterSpecialMode s = .next s ∧ exec .enterNormalMode s = .next s

/-- A mode round trip ends dark (43_mode_control.md R84): the flag DISABLED and `OE` high, whatever they were. The block
accepts a command only when idle (10_state.md R20). -/
def Obligations.ModeRoundTripEndsDisabled : Prop :=
  ∀ s : State, s.seq = .idle → s.hasOE = true →
    ∃ t u : State, exec .enterSpecialMode s = .next t ∧ exec .enterNormalMode t = .next u ∧
      u.enable = .disabled ∧ u.pins.oe = some (.level true)

/-- What the mode transitions leave alone (43_mode_control.md R80, R81): the configuration, the data line, the idle clock
and latch levels, the host's commands, the draw counter, every byte of the buffer; the normal transition also the flag.
That it leaves the chips' outputs is the observer's (20_memory.md R40, R42; log 11, PRESUMED). -/
def Obligations.ModeTransitionsFrame : Prop :=
  ∀ (s : State) (i : Instr), s.seq = .idle → s.pins.clk = false → s.pins.le = false →
    (i = .enterSpecialMode ∨ i = .enterNormalMode) →
    ∃ t : State, exec i s = .next t ∧ t.config = s.config ∧ t.pins.sdi = s.pins.sdi ∧ t.pins.clk = false ∧ t.pins.le = false ∧
      t.inbox = s.inbox ∧ t.freeDraws = s.freeDraws ∧ t.seq = .idle ∧ (∀ k, t.buf.read k = s.buf.read k) ∧
      (i = .enterNormalMode → t.enable = s.enable ∧ t.chips.out = s.chips.out)

/-! ### Enable, disable, brightness -/

/-- DISPLAY_ENABLE (44_enable_brightness.md R86, R88, the no-op's extent by D20; log 18): one `E-`, `OE` low, the flag
ENABLED; nothing at all without an enable line; everything else as before. A level write replaces PWM by D8 (log 17). -/
def Obligations.DisplayEnableDrivesOeLow : Prop :=
  ∀ s : State, s.seq = .idle →
    exec .displayEnable s = .next
      (if s.hasOE then
        { s with
          enable := .enabled
          pins := { s.pins with oe := some (.level false) }
          trace := s.trace ++ [.oeDown] }
      else s)

/-- DISPLAY_DISABLE (44_enable_brightness.md R87, R88, the no-op's extent by D20; log 18): one `E+`, `OE` high, the flag
DISABLED; nothing at all without an enable line; everything else as before. -/
def Obligations.DisplayDisableDrivesOeHigh : Prop :=
  ∀ s : State, s.seq = .idle →
    exec .displayDisable s = .next
      (if s.hasOE then
        { s with
          enable := .disabled
          pins := { s.pins with oe := some (.level true) }
          trace := s.trace ++ [.oeUp] }
      else s)

/-- SET_BRIGHTNESS (44_enable_brightness.md R89, R90): the PWM duty `255 − level`, or one `DIAG` and nothing else without
an enable line; the flag and everything else as before. -/
def Obligations.SetBrightnessWritesInvertedDuty : Prop :=
  ∀ (s : State) (level : Byte), s.seq = .idle →
    exec (.setBrightness level) s = .next
      (if s.hasOE then
        { s with
          pins := { s.pins with oe := some (.pwm (BitVec.ofNat 8 (255 - level.toNat))) }
          trace := s.trace ++ [.pwm (BitVec.ofNat 8 (255 - level.toNat))] }
      else { s with trace := s.trace ++ [.diag] })

/-- What the three commands leave alone (44_enable_brightness.md R86, R87, R89): the configuration, the data, clock and
latch lines, the chips, the host's commands, the draw counter, every byte of the buffer; SET_BRIGHTNESS also the flag. -/
def Obligations.EnableCommandsFrame : Prop :=
  ∀ (s : State) (i : Instr), s.seq = .idle →
    (i = .displayEnable ∨ i = .displayDisable ∨ ∃ level, i = .setBrightness level) →
    ∃ t : State, exec i s = .next t ∧ t.config = s.config ∧ t.pins.sdi = s.pins.sdi ∧ t.pins.clk = s.pins.clk ∧
      t.pins.le = s.pins.le ∧ t.chips = s.chips ∧ t.inbox = s.inbox ∧ t.freeDraws = s.freeDraws ∧ t.seq = .idle ∧
      (∀ k, t.buf.read k = s.buf.read k) ∧ ((∃ level, i = .setBrightness level) → t.enable = s.enable)

/-- A level write cancels PWM (70_reset_and_hazards.md R118, the spec's decision D8; log 17): after each of the four
commands `OE` holds a level, whatever duty it held. -/
def Obligations.LevelWritesCancelPwm : Prop :=
  ∀ (s : State) (i : Instr) (duty : Byte), s.hasOE = true → s.pins.oe = some (.pwm duty) → s.seq = .idle →
    i ∈ [Instr.displayEnable, .displayDisable, .enterSpecialMode, .enterNormalMode] →
    ∃ (t : State) (b : Bit), exec i s = .next t ∧ t.pins.oe = some (.level b)

/-- Brightness and the flag can disagree (70_reset_and_hazards.md R117): after DISPLAY_DISABLE and full brightness the
outputs are on all the time while the flag says DISABLED, and ENTER_NORMAL_MODE then turns them off. That a level write
ends the PWM is the spec's decision D8 (log 17). The block accepts a command only when idle (10_state.md R20). -/
def Obligations.BrightnessCanContradictTheFlag : Prop :=
  ∀ s : State, s.seq = .idle → s.hasOE = true →
    ∃ t u v : State, exec .displayDisable s = .next t ∧ exec (.setBrightness 255) t = .next u ∧
      exec .enterNormalMode u = .next v ∧
      u.enable = .disabled ∧ u.pins.oe.map OeDrive.enabledShare = some 255 ∧
      v.enable = .disabled ∧ v.pins.oe.map OeDrive.enabledShare = some 0

/-! ### SELF_TEST -/

/-- SELF_TEST decodes and is refused (45_selftest.md R92, the spec's decision D21; log 23). -/
def Obligations.SelfTestIsRefused : Prop :=
  ∀ s : State, exec .selfTest s = .refused .selfTestNotSpecified

/-! ### All commands -/

/-- Every command but SELF_TEST, for every operand value and in every idle state, in which alone a command is accepted
(10_state.md R20), terminates and returns control at a command boundary (60_exceptions.md R94, 46_command_classes.md
R125). That the print commands run on a short buffer too is the model's choice (log 8). -/
def Obligations.EveryCommandCompletes : Prop :=
  ∀ (i : Instr) (s : State), i ≠ .selfTest → s.seq = .idle → ∃ t : State, exec i s = .next t ∧ t.seq = .idle

/-- How many events each command emits (46_command_classes.md R125). -/
def Obligations.EventCounts : Prop :=
  ∀ s : State, s.seq = .idle →
    (∀ invert length, ∃ t : State, exec (.printText invert length) s = .next t ∧
      t.trace.length = s.trace.length + 24 * s.config.n + 2) ∧
    (∀ value, ∃ t : State, exec (.printNumber value) s = .next t ∧
      t.trace.length = s.trace.length + 24 * min s.config.n 2 + 2) ∧
    (∀ length, ∃ t : State, exec (.printRaw length) s = .next t ∧
      t.trace.length = s.trace.length + 24 * s.config.n + 2) ∧
    (∀ i, i = Instr.displayEnable ∨ i = .displayDisable → ∃ t : State, exec i s = .next t ∧
      t.trace.length = s.trace.length + (if s.hasOE then 1 else 0)) ∧
    (∀ level, ∃ t : State, exec (.setBrightness level) s = .next t ∧ t.trace.length = s.trace.length + 1) ∧
    (∃ t : State, exec .enterSpecialMode s = .next t ∧
      t.trace.length = s.trace.length + (if s.hasOE then 17 else 0)) ∧
    (∃ t : State, exec .enterNormalMode s = .next t ∧
      t.trace.length = s.trace.length + (if s.hasOE then (if s.enable = .enabled then 18 else 17) else 0))

/-- No command changes a configuration register (10_state.md R14), and neither does any step; the instance's stream of
free values, the model's own, stays too (log 32). -/
def Obligations.StepKeepsTheConfiguration : Prop :=
  ∀ s t : State, step s = .next t → t.config = s.config ∧ t.freeStream = s.freeStream

/-- The trace holds every event since construction (10_state.md R24, 20_memory.md R38): a step only adds behind it. -/
def Obligations.EventsAreOnlyAppended : Prop :=
  ∀ s t : State, step s = .next t → ∃ es : List Event, t.trace = s.trace ++ es

/-- A finite list of commands runs to its end (70_reset_and_hazards.md R124, 60_exceptions.md R94): when every word the
host has to hand over is a command other than SELF_TEST, as many steps as there are words end the run. -/
def Obligations.FiniteCommandListRunsToItsEnd : Prop :=
  ∀ s : State, s.seq = .idle → (∀ c ∈ s.inbox, ∃ i, decode c.word = .ok i ∧ i ≠ .selfTest) →
    ∃ t : State, runSteps s.inbox.length s = .next t ∧ t.runOver ∧ t.config = s.config

/-- Each pin write of a print command reaches the physical pin the configuration holds for its role, with its level
(20_memory.md R31, R33, 10_state.md R14): one call for each new event, in their order, a write of `SDI` on the data pin, of
`CLK` on the clock pin, of `LE` on the latch pin, and there is no other event. -/
def Obligations.PrintWritesReachTheirPins : Prop :=
  ∀ (s : State) (i : Instr), s.seq = .idle →
    ((∃ invert length, i = .printText invert length) ∨ (∃ value, i = .printNumber value) ∨
      (∃ length, i = .printRaw length)) →
    ∃ (t : State) (es : List Event) (cs : List CollabCall), exec i s = .next t ∧ t.trace = s.trace ++ es ∧
      t.calls = s.calls ++ cs ∧
      List.Forall₂ (fun e c => ∃ b : Bit,
        (e = .write .sdi b ∧ c = .writeDigital s.config.dataPin b) ∨
        (e = .write .clk b ∧ c = .writeDigital s.config.clockPin b) ∨
        (e = .write .le b ∧ c = .writeDigital s.config.latchPin b)) es cs

/-- The platform calls of the commands that drive `OE` (20_memory.md R31, R33, 44_enable_brightness.md R86 to R90,
43_mode_control.md R80 to R82; the pulse counts as in the spec, log 25): level writes and the duty go to the enable pin,
the pulses of the mode sequences to the clock and latch pins; without an enable line there is no call at all. -/
def Obligations.EnableWritesReachTheEnablePin : Prop :=
  ∀ s : State, s.seq = .idle →
    (∀ (pin : PinId) (up down : CollabCall) (pulse : List CollabCall), s.config.enablePin = some pin →
      up = .writeDigital pin true → down = .writeDigital pin false →
      pulse = [.writeDigital s.config.clockPin true, .writeDigital s.config.clockPin false] →
      (∃ t : State, exec .displayEnable s = .next t ∧ t.calls = s.calls ++ [down]) ∧
      (∃ t : State, exec .displayDisable s = .next t ∧ t.calls = s.calls ++ [up]) ∧
      (∀ level, ∃ t : State, exec (.setBrightness level) s = .next t ∧
        t.calls = s.calls ++ [.writePWM pin (BitVec.ofNat 8 (255 - level.toNat))]) ∧
      (∃ t : State, exec .enterSpecialMode s = .next t ∧
        t.calls = s.calls ++ ([up] ++ pulse ++ [down] ++ pulse ++ [up] ++ pulse ++ pulse ++
          [.writeDigital s.config.latchPin true] ++ pulse ++ [.writeDigital s.config.latchPin false] ++ pulse)) ∧
      (∃ t : State, exec .enterNormalMode s = .next t ∧
        t.calls = s.calls ++ ([up] ++ pulse ++ [down] ++ pulse ++ [up] ++ pulse ++ pulse ++ pulse ++ pulse ++ pulse ++
          (if s.enable = .enabled then [down] else [])))) ∧
    (s.config.enablePin = none → ∀ i : Instr,
      (i = .displayEnable ∨ i = .displayDisable ∨ (∃ level, i = .setBrightness level) ∨ i = .enterSpecialMode ∨
        i = .enterNormalMode) →
      ∃ t : State, exec i s = .next t ∧ t.calls = s.calls)

/-- CONFIGURE makes each pin of the construction an output and makes no other platform call (70_reset_and_hazards.md R109,
the spec's decision D12); in which order, which the spec leaves open, is not stated (log 33). -/
def Obligations.ConfigureMakesThePinsOutputs : Prop :=
  ∀ (stream maxChips : Nat) (c : Construction) (call : CollabCall),
    call ∈ (State.configure stream maxChips c).calls ↔
      ∃ pin : PinId, call = .configureOutput pin ∧
        (pin = c.dataPin ∨ pin = c.clockPin ∨ pin = c.latchPin ∨ c.enablePin = some pin)

/-- Who may write the flag (10_state.md R15): without an enable line nobody; with one DISPLAY_ENABLE, DISPLAY_DISABLE and
ENTER_SPECIAL_MODE; every other command leaves it as it was. The lines `OE` is driven on without an enable line: none. -/
def Obligations.FlagWriters : Prop :=
  ∀ (i : Instr) (s t : State), s.seq = .idle → exec i s = .next t →
    (t.enable ≠ s.enable → s.hasOE = true ∧ (i = .displayEnable ∨ i = .displayDisable ∨ i = .enterSpecialMode)) ∧
    (t.pins.oe ≠ s.pins.oe → s.hasOE = true ∧
      (i = .displayEnable ∨ i = .displayDisable ∨ i = .enterSpecialMode ∨ i = .enterNormalMode ∨
        ∃ level, i = .setBrightness level))

/-- The block writes no memory (20_memory.md R32): every byte of the buffer presented with a command reads after its last
event as before the command; the step then drops the buffer (R30). -/
def Obligations.NoCommandWritesMemory : Prop :=
  ∀ (i : Instr) (s t : State), s.seq = .idle → exec i s = .next t → ∀ k, t.buf.read k = s.buf.read k

/-- The atomic form of a command and its micro-step form are the same machine (10_state.md R20, the spec's decision D9;
log 7): from acceptance, the steps of the busy block emit the events one by one, stay busy until the last is out, and end
in the state the atomic command answers, its buffer dropped as after every command (20_memory.md R30). -/
def Obligations.MicroStepsRefineTheAtomicCommand : Prop :=
  ∀ (i : Instr) (s : State) (p : Plan), s.seq = .idle → planOf i s = some p →
    (∀ k, k ≤ p.events.length → ∃ u : State, runSteps k (s.accept p) = .next u ∧
      u.seq = .busy (p.events.drop k) p.finish ∧ u.trace = s.trace ++ p.events.take k ∧ u.enable = s.enable) ∧
    ∃ t : State, exec i s = .next t ∧ runSteps (p.events.length + 1) (s.accept p) = .next { t with buf := [] }

/-- The invariant (Safety.lean, State.Inv): chip count in bounds, `CLK` and `LE` low and `OE` in agreement with the flag
at every command boundary (10_state.md R14, R26), the registers the last levels written (R16, R24), whole pulses in the
shape of 41_shift_primitives.md R68, buffers in canonical form and none kept between commands (20_memory.md R30): every
step keeps it. -/
def Obligations.StepKeepsTheInvariant : Prop :=
  ∀ s t : State, s.Inv → step s = .next t → t.Inv

/-- The invariant holds after reset (10_state.md R26, with the reset values of R27, decisions D7 and D12; log 5, 6). -/
def Obligations.ResetMeetsTheInvariant : Prop := State.reset.Inv

/-! ### Several instances -/

/-- Instances that share a pin are not launched; instances that do not each start as constructed (60_exceptions.md R105,
93_implementation_defined.md U1; log 22), with a stream of free values of its own (log 32). -/
def Obligations.LaunchNeedsDisjointPins : Prop :=
  ∀ (maxChips : Nat) (cs : List Construction),
    ((∃ (a b : Nat) (p : PinId), a < b ∧ (∃ x y, cs[a]? = some x ∧ cs[b]? = some y ∧ p ∈ pinsNamed x ∧ p ∈ pinsNamed y)) →
      launch maxChips cs = .refused .sharedPins) ∧
    ((∀ (a b : Nat) (x y : Construction), a < b → cs[a]? = some x → cs[b]? = some y → ∀ p ∈ pinsNamed x, p ∉ pinsNamed y) →
      launch maxChips cs = .next (cs.mapIdx fun k c => State.configure k maxChips c))

/-- Instances share no mutable state (60_exceptions.md R105): a step of one leaves every other as it was. -/
def Obligations.InstancesAreIndependent : Prop :=
  ∀ (k : Nat) (ss ts : List State), stepInstance k ss = .next ts →
    ts.length = ss.length ∧ (∀ j, j ≠ k → ts[j]? = ss[j]?) ∧
    (∀ s, ss[k]? = some s → ∃ t : State, step s = .next t ∧ ts[k]? = some t)
end

