-- ==== Sys2Proof/Laws/Decode.lean ====
section
/-! SUPPORT. The fields of a packed word, and a word from its fields. -/

namespace Sys2Proof

variable (op : BitVec 4) (zero : BitVec 11) (inv : Bool) (arg : BitVec 16)

theorem packWord_getLsbD (i : Nat) :
    (packWord op zero inv arg).getLsbD i =
      if i < 16 then arg.getLsbD i
      else if i < 17 then inv
      else if i < 28 then zero.getLsbD (i - 17)
      else op.getLsbD (i - 28) := by
  simp only [packWord, BitVec.getLsbD_append, BitVec.getLsbD_ofBool]
  by_cases h1 : i < 16
  · simp [h1]
  · by_cases h2 : i < 17
    · have : i = 16 := by omega
      subst this; simp
    · by_cases h3 : i < 28
      · simp [h1, h2, h3, show ¬ (i - 16 < 1) by omega, show i - 16 - 1 = i - 17 by omega]
        intro; omega
      · simp [h1, h2, h3, show ¬ (i - 16 < 1) by omega, show ¬ (i - 16 - 1 < 11) by omega,
          show i - 16 - 1 - 11 = i - 28 by omega]

@[simp] theorem opField_packWord : opField (packWord op zero inv arg) = op := by
  ext i hi
  simp only [opField, BitVec.getElem_extractLsb', packWord_getLsbD]
  simp [show ¬ (28 + i < 16) by omega, show ¬ (28 + i < 17) by omega, show ¬ (28 + i < 28) by omega,
    show 28 + i - 28 = i by omega, BitVec.getLsbD_eq_getElem hi]

@[simp] theorem zeroField_packWord : zeroField (packWord op zero inv arg) = zero := by
  ext i hi
  simp only [zeroField, BitVec.getElem_extractLsb', packWord_getLsbD]
  simp [show ¬ (17 + i < 16) by omega, show ¬ (17 + i < 17) by omega, show 17 + i < 28 by omega,
    show 17 + i - 17 = i by omega, BitVec.getLsbD_eq_getElem hi]

@[simp] theorem invField_packWord : invField (packWord op zero inv arg) = inv := by
  rw [invField, packWord_getLsbD]; rfl

@[simp] theorem argField_packWord : argField (packWord op zero inv arg) = arg := by
  ext i hi
  simp only [argField, BitVec.getElem_extractLsb', packWord_getLsbD]
  simp [hi]

/-- A word is the packing of its own fields. -/
theorem packWord_fields (w : CommandWord) : packWord (opField w) (zeroField w) (invField w) (argField w) = w := by
  apply BitVec.eq_of_getLsbD_eq
  intro i hi
  rw [packWord_getLsbD]
  simp only [opField, zeroField, invField, argField, BitVec.getLsbD_extractLsb']
  split
  · simp [*]
  · split
    · have : i = 16 := by omega
      subst this; rfl
    · split
      · simp [show i - 17 < 11 by omega, show 17 + (i - 17) = i by omega]
      · simp [show i - 28 < 4 by omega, show 28 + (i - 28) = i by omega]

end Sys2Proof
end

