-- ==== Sys2Proof/Laws/State.lean ====
section
/-! SUPPORT. One lemma per field per state update, so that no proof unfolds a record update. -/

namespace Sys2Proof.Machine

variable (s : State)

/-! ### emit -/

@[simp] theorem State.emit_config (e : Event) : (s.emit e).config = s.config := rfl
@[simp] theorem State.emit_enable (e : Event) : (s.emit e).enable = s.enable := rfl
@[simp] theorem State.emit_pins (e : Event) : (s.emit e).pins = s.pins.apply e := rfl
@[simp] theorem State.emit_trace (e : Event) : (s.emit e).trace = s.trace ++ [e] := rfl
@[simp] theorem State.emit_seq (e : Event) : (s.emit e).seq = s.seq := rfl
@[simp] theorem State.emit_chips (e : Event) : (s.emit e).chips = s.chips.react s.freeStream s.config.n s.pins e := rfl
@[simp] theorem State.emit_buf (e : Event) : (s.emit e).buf = s.buf := rfl
@[simp] theorem State.emit_inbox (e : Event) : (s.emit e).inbox = s.inbox := rfl
@[simp] theorem State.emit_freeDraws (e : Event) : (s.emit e).freeDraws = s.freeDraws := rfl
@[simp] theorem State.emit_freeStream (e : Event) : (s.emit e).freeStream = s.freeStream := rfl

/-! ### finish -/

@[simp] theorem State.finish_config (f : Finish) : (s.finish f).config = s.config := rfl
@[simp] theorem State.finish_enable (f : Finish) : (s.finish f).enable = f.flagAfter s.enable := rfl
@[simp] theorem State.finish_pins (f : Finish) : (s.finish f).pins = s.pins := rfl
@[simp] theorem State.finish_trace (f : Finish) : (s.finish f).trace = s.trace := rfl
@[simp] theorem State.finish_seq (f : Finish) : (s.finish f).seq = .idle := rfl
@[simp] theorem State.finish_chips (f : Finish) : (s.finish f).chips = { s.chips with mode := f.modeAfter s.chips.mode } := rfl
@[simp] theorem State.finish_buf (f : Finish) : (s.finish f).buf = s.buf := rfl
@[simp] theorem State.finish_inbox (f : Finish) : (s.finish f).inbox = s.inbox := rfl
@[simp] theorem State.finish_freeDraws (f : Finish) : (s.finish f).freeDraws = s.freeDraws := rfl
@[simp] theorem State.finish_freeStream (f : Finish) : (s.finish f).freeStream = s.freeStream := rfl

/-! ### accept -/

@[simp] theorem State.accept_config (p : Plan) : (s.accept p).config = s.config := rfl
@[simp] theorem State.accept_enable (p : Plan) : (s.accept p).enable = s.enable := rfl
@[simp] theorem State.accept_pins (p : Plan) : (s.accept p).pins = s.pins := rfl
@[simp] theorem State.accept_trace (p : Plan) : (s.accept p).trace = s.trace := rfl
@[simp] theorem State.accept_seq (p : Plan) : (s.accept p).seq = .busy p.events p.finish := rfl
@[simp] theorem State.accept_chips (p : Plan) : (s.accept p).chips = s.chips := rfl
@[simp] theorem State.accept_buf (p : Plan) : (s.accept p).buf = s.buf := rfl
@[simp] theorem State.accept_inbox (p : Plan) : (s.accept p).inbox = s.inbox := rfl
@[simp] theorem State.accept_freeDraws (p : Plan) : (s.accept p).freeDraws = s.freeDraws + p.draws := rfl
@[simp] theorem State.accept_freeStream (p : Plan) : (s.accept p).freeStream = s.freeStream := rfl

/-! ### present -/

@[simp] theorem State.present_config (c : HostCommand) (rest : List HostCommand) : (s.present c rest).config = s.config := rfl
@[simp] theorem State.present_enable (c : HostCommand) (rest : List HostCommand) : (s.present c rest).enable = s.enable := rfl
@[simp] theorem State.present_pins (c : HostCommand) (rest : List HostCommand) : (s.present c rest).pins = s.pins := rfl
@[simp] theorem State.present_trace (c : HostCommand) (rest : List HostCommand) : (s.present c rest).trace = s.trace := rfl
@[simp] theorem State.present_seq (c : HostCommand) (rest : List HostCommand) : (s.present c rest).seq = s.seq := rfl
@[simp] theorem State.present_chips (c : HostCommand) (rest : List HostCommand) : (s.present c rest).chips = s.chips := rfl
@[simp] theorem State.present_buf (c : HostCommand) (rest : List HostCommand) : (s.present c rest).buf = c.buf := rfl
@[simp] theorem State.present_inbox (c : HostCommand) (rest : List HostCommand) : (s.present c rest).inbox = rest := rfl
@[simp] theorem State.present_freeDraws (c : HostCommand) (rest : List HostCommand) : (s.present c rest).freeDraws = s.freeDraws := rfl
@[simp] theorem State.present_freeStream (c : HostCommand) (rest : List HostCommand) : (s.present c rest).freeStream = s.freeStream := rfl

/-! ### dropBuffer -/

@[simp] theorem State.dropBuffer_config : s.dropBuffer.config = s.config := rfl
@[simp] theorem State.dropBuffer_enable : s.dropBuffer.enable = s.enable := rfl
@[simp] theorem State.dropBuffer_pins : s.dropBuffer.pins = s.pins := rfl
@[simp] theorem State.dropBuffer_trace : s.dropBuffer.trace = s.trace := rfl
@[simp] theorem State.dropBuffer_seq : s.dropBuffer.seq = s.seq := rfl
@[simp] theorem State.dropBuffer_chips : s.dropBuffer.chips = s.chips := rfl
@[simp] theorem State.dropBuffer_buf : s.dropBuffer.buf = [] := rfl
@[simp] theorem State.dropBuffer_inbox : s.dropBuffer.inbox = s.inbox := rfl
@[simp] theorem State.dropBuffer_freeDraws : s.dropBuffer.freeDraws = s.freeDraws := rfl
@[simp] theorem State.dropBuffer_freeStream : s.dropBuffer.freeStream = s.freeStream := rfl

/-! ### submit -/

@[simp] theorem State.submit_config (c : HostCommand) : (s.submit c).config = s.config := rfl
@[simp] theorem State.submit_enable (c : HostCommand) : (s.submit c).enable = s.enable := rfl
@[simp] theorem State.submit_pins (c : HostCommand) : (s.submit c).pins = s.pins := rfl
@[simp] theorem State.submit_trace (c : HostCommand) : (s.submit c).trace = s.trace := rfl
@[simp] theorem State.submit_seq (c : HostCommand) : (s.submit c).seq = s.seq := rfl
@[simp] theorem State.submit_chips (c : HostCommand) : (s.submit c).chips = s.chips := rfl
@[simp] theorem State.submit_buf (c : HostCommand) : (s.submit c).buf = s.buf := rfl
@[simp] theorem State.submit_inbox (c : HostCommand) : (s.submit c).inbox = s.inbox ++ [c] := rfl
@[simp] theorem State.submit_freeDraws (c : HostCommand) : (s.submit c).freeDraws = s.freeDraws := rfl
@[simp] theorem State.submit_freeStream (c : HostCommand) : (s.submit c).freeStream = s.freeStream := rfl

/-! ### handFirst -/

@[simp] theorem State.handFirst_config (nbits w : Nat) : (s.handFirst nbits w).config = s.config := rfl
@[simp] theorem State.handFirst_enable (nbits w : Nat) : (s.handFirst nbits w).enable = s.enable := rfl
@[simp] theorem State.handFirst_pins (nbits w : Nat) : (s.handFirst nbits w).pins = s.pins := rfl
@[simp] theorem State.handFirst_trace (nbits w : Nat) : (s.handFirst nbits w).trace = s.trace := rfl
@[simp] theorem State.handFirst_seq (nbits w : Nat) : (s.handFirst nbits w).seq = .idle := rfl
@[simp] theorem State.handFirst_chips (nbits w : Nat) : (s.handFirst nbits w).chips = s.chips := rfl
@[simp] theorem State.handFirst_buf (nbits w : Nat) : (s.handFirst nbits w).buf = s.buf := rfl
@[simp] theorem State.handFirst_inbox (nbits w : Nat) : (s.handFirst nbits w).inbox = ⟨tableWord nbits w, s.buf⟩ :: s.inbox := rfl
@[simp] theorem State.handFirst_freeDraws (nbits w : Nat) : (s.handFirst nbits w).freeDraws = s.freeDraws := rfl
@[simp] theorem State.handFirst_freeStream (nbits w : Nat) : (s.handFirst nbits w).freeStream = s.freeStream := rfl

/-! ### replacing the sequencer position -/

@[simp] theorem State.finish_withSeq (q : Seq) (f : Finish) : State.finish { s with seq := q } f = s.finish f := rfl
@[simp] theorem State.emit_withSeq (q : Seq) (e : Event) :
    State.emit { s with seq := q } e = { s.emit e with seq := q } := rfl
@[simp] theorem State.emit_hasOE (e : Event) : (s.emit e).hasOE = s.hasOE := rfl
@[simp] theorem State.finish_hasOE (f : Finish) : (s.finish f).hasOE = s.hasOE := rfl
@[simp] theorem State.accept_hasOE (p : Plan) : (s.accept p).hasOE = s.hasOE := rfl
@[simp] theorem State.present_hasOE (c : HostCommand) (rest : List HostCommand) : (s.present c rest).hasOE = s.hasOE := rfl
@[simp] theorem State.dropBuffer_hasOE : s.dropBuffer.hasOE = s.hasOE := rfl

end Sys2Proof.Machine
end

