-- ==== Sys2Proof/Laws/Ops.lean ====
section
/-! SUPPORT. What the shared operations can do, each said once: emitting events, the sequencer, issuing a command. -/

namespace Sys2Proof.Machine

variable (s : State)

/-! ### Emitting events -/

@[simp] theorem State.emitAll_nil : s.emitAll [] = s := rfl

@[simp] theorem State.emitAll_cons (e : Event) (es : List Event) : s.emitAll (e :: es) = (s.emit e).emitAll es := rfl

theorem State.emitAll_append (es fs : List Event) : s.emitAll (es ++ fs) = (s.emitAll es).emitAll fs :=
  List.foldl_append

@[simp] theorem Pins.applyAll_nil (p : Pins) : p.applyAll [] = p := rfl

@[simp] theorem Pins.applyAll_cons (p : Pins) (e : Event) (es : List Event) :
    p.applyAll (e :: es) = (p.apply e).applyAll es := rfl

theorem Pins.applyAll_append (p : Pins) (es fs : List Event) : p.applyAll (es ++ fs) = (p.applyAll es).applyAll fs :=
  List.foldl_append

/-- Everything a list of events leaves alone, and what it does to the registers and the trace. -/
theorem State.emitAll_spec (es : List Event) :
    (s.emitAll es).config = s.config ∧ (s.emitAll es).enable = s.enable ∧ (s.emitAll es).seq = s.seq ∧
    (s.emitAll es).buf = s.buf ∧ (s.emitAll es).inbox = s.inbox ∧ (s.emitAll es).freeDraws = s.freeDraws ∧
    (s.emitAll es).pins = s.pins.applyAll es ∧ (s.emitAll es).trace = s.trace ++ es ∧
    (s.emitAll es).chips.mode = s.chips.mode ∧ (s.emitAll es).freeStream = s.freeStream := by
  induction es generalizing s with
  | nil => simp
  | cons e es ih =>
    obtain ⟨h1, h2, h3, h4, h5, h6, h7, h8, h9, h10⟩ := ih (s.emit e)
    refine ⟨h1, h2, h3, h4, h5, h6, h7, by simp [h8], ?_, h10⟩
    rw [State.emitAll_cons, h9]
    show (s.chips.react s.freeStream s.config.n s.pins e).mode = s.chips.mode
    unfold Chips.react Chips.shiftIn Chips.latch
    split <;> (try split) <;> rfl

@[simp] theorem State.emitAll_config (es : List Event) : (s.emitAll es).config = s.config := (s.emitAll_spec es).1
@[simp] theorem State.emitAll_enable (es : List Event) : (s.emitAll es).enable = s.enable := (s.emitAll_spec es).2.1
@[simp] theorem State.emitAll_seq (es : List Event) : (s.emitAll es).seq = s.seq := (s.emitAll_spec es).2.2.1
@[simp] theorem State.emitAll_buf (es : List Event) : (s.emitAll es).buf = s.buf := (s.emitAll_spec es).2.2.2.1
@[simp] theorem State.emitAll_inbox (es : List Event) : (s.emitAll es).inbox = s.inbox :=
  (s.emitAll_spec es).2.2.2.2.1
@[simp] theorem State.emitAll_freeDraws (es : List Event) : (s.emitAll es).freeDraws = s.freeDraws :=
  (s.emitAll_spec es).2.2.2.2.2.1
@[simp] theorem State.emitAll_pins (es : List Event) : (s.emitAll es).pins = s.pins.applyAll es :=
  (s.emitAll_spec es).2.2.2.2.2.2.1
@[simp] theorem State.emitAll_trace (es : List Event) : (s.emitAll es).trace = s.trace ++ es :=
  (s.emitAll_spec es).2.2.2.2.2.2.2.1
@[simp] theorem State.emitAll_chipMode (es : List Event) : (s.emitAll es).chips.mode = s.chips.mode :=
  (s.emitAll_spec es).2.2.2.2.2.2.2.2.1
@[simp] theorem State.emitAll_freeStream (es : List Event) : (s.emitAll es).freeStream = s.freeStream :=
  (s.emitAll_spec es).2.2.2.2.2.2.2.2.2
@[simp] theorem State.emitAll_hasOE (es : List Event) : (s.emitAll es).hasOE = s.hasOE := by
  simp [State.hasOE]

/-- What a list of events does to the chips, starting from given registers; `g` is the instance's
stream of free values. -/
def Chips.reactAll (g n : Nat) : Pins → Chips → List Event → Chips
  | _, c, [] => c
  | p, c, e :: es => Chips.reactAll g n (p.apply e) (c.react g n p e) es

theorem Chips.reactAll_append (g n : Nat) (p : Pins) (c : Chips) (es fs : List Event) :
    Chips.reactAll g n p c (es ++ fs) = Chips.reactAll g n (p.applyAll es) (Chips.reactAll g n p c es) fs := by
  induction es generalizing p c with
  | nil => rfl
  | cons e es ih => exact ih _ _

theorem State.emitAll_chips (es : List Event) :
    (s.emitAll es).chips = Chips.reactAll s.freeStream s.config.n s.pins s.chips es := by
  induction es generalizing s with
  | nil => rfl
  | cons e es ih => exact ih (s.emit e)

/-- The state a list of events leads to, field by field. -/
theorem State.emitAll_eq (es : List Event) :
    s.emitAll es =
      { s with
        pins := s.pins.applyAll es
        trace := s.trace ++ es
        chips := Chips.reactAll s.freeStream s.config.n s.pins s.chips es } := by
  obtain ⟨h1, h2, h3, h4, h5, h6, h7, h8, -, h10⟩ := s.emitAll_spec es
  have h9 := s.emitAll_chips es
  generalize s.emitAll es = t at *
  cases t
  simp_all

theorem State.emitAll_withSeq (q : Seq) (es : List Event) :
    State.emitAll { s with seq := q } es = { s.emitAll es with seq := q } := by
  simp [State.emitAll_eq]

/-! ### The sequencer -/

@[simp] theorem State.settle_idle (h : s.seq = .idle) : s.settle = s := by simp [State.settle, h]

theorem State.settle_busy {es : List Event} {f : Finish} (h : s.seq = .busy es f) :
    s.settle = ((s.emitAll es).finish f).dropBuffer := by simp [State.settle, h]

/-- Whatever the sequencer was doing, the settled state is at a command boundary. -/
@[simp] theorem State.settle_seq : s.settle.seq = .idle := by
  unfold State.settle
  split
  · assumption
  · rfl

theorem State.settle_settle : s.settle.settle = s.settle := State.settle_idle _ s.settle_seq

theorem State.settle_config : s.settle.config = s.config := by
  unfold State.settle; split <;> simp

theorem State.settle_hasOE : s.settle.hasOE = s.hasOE := by
  simp [State.hasOE, State.settle_config]

theorem State.settle_freeStream : s.settle.freeStream = s.freeStream := by
  unfold State.settle; split <;> simp

/-- The running command's buffer is dropped at its end (20_memory.md R30). -/
theorem State.settle_buf_busy (h : s.seq ≠ .idle) : s.settle.buf = [] := by
  unfold State.settle; split
  · contradiction
  · rfl

theorem State.settle_inbox : s.settle.inbox = s.inbox := by
  unfold State.settle; split <;> simp

/-- A micro-step brings the machine no nearer to another boundary than the one it was running towards. -/
theorem State.settle_microStep : s.microStep.settle = s.settle := by
  unfold State.microStep
  split
  · rfl
  · rename_i f h; simp [State.settle, h]
  · rename_i e es f h
    have he := State.emitAll_withSeq (s.emit e) (.busy es f) es
    simp only [State.settle, h]
    exact (congrArg (fun u => (State.finish u f).dropBuffer) he).trans rfl

/-- Accepting a command and running its micro-steps to the end of it is running it at once, its buffer then dropped. -/
theorem State.settle_accept (p : Plan) : (s.accept p).settle = (s.runPlan p).dropBuffer := rfl

/-- A command run to completion, field by field. -/
theorem State.runPlan_eq (p : Plan) :
    s.runPlan p =
      { s with
        enable := p.finish.flagAfter s.enable
        pins := s.pins.applyAll p.events
        trace := s.trace ++ p.events
        seq := .idle
        chips := { Chips.reactAll s.freeStream s.config.n s.pins s.chips p.events with
          mode := p.finish.modeAfter s.chips.mode }
        freeDraws := s.freeDraws + p.draws } := by
  have hm := (s.accept p).emitAll_chipMode p.events
  rw [State.runPlan]
  rw [State.emitAll_eq] at hm ⊢
  simp only [State.accept_chips, State.accept_config, State.accept_pins, State.accept_freeStream] at hm
  simp [State.finish, State.accept, hm]

@[simp] theorem State.runPlan_config (p : Plan) : (s.runPlan p).config = s.config := by rw [State.runPlan_eq]

@[simp] theorem State.runPlan_hasOE (p : Plan) : (s.runPlan p).hasOE = s.hasOE := by rw [State.runPlan_eq]; rfl

@[simp] theorem State.runPlan_buf (p : Plan) : (s.runPlan p).buf = s.buf := by rw [State.runPlan_eq]

@[simp] theorem State.runPlan_inbox (p : Plan) : (s.runPlan p).inbox = s.inbox := by rw [State.runPlan_eq]

@[simp] theorem State.runPlan_trace (p : Plan) : (s.runPlan p).trace = s.trace ++ p.events := by rw [State.runPlan_eq]

@[simp] theorem State.runPlan_pins (p : Plan) : (s.runPlan p).pins = s.pins.applyAll p.events := by
  rw [State.runPlan_eq]

@[simp] theorem State.runPlan_enable (p : Plan) : (s.runPlan p).enable = p.finish.flagAfter s.enable := by
  rw [State.runPlan_eq]

@[simp] theorem State.runPlan_seq (p : Plan) : (s.runPlan p).seq = .idle := rfl

@[simp] theorem State.runPlan_freeStream (p : Plan) : (s.runPlan p).freeStream = s.freeStream := by
  rw [State.runPlan_eq]

@[simp] theorem State.runPlan_freeDraws (p : Plan) : (s.runPlan p).freeDraws = s.freeDraws + p.draws := by
  rw [State.runPlan_eq]

/-- Issuing a command always answers a next state, at a command boundary. -/
theorem State.issue_eq (plan : State → Plan) : s.issue plan = .next (s.settle.runPlan (plan s.settle)) := rfl

theorem State.issue_idle (plan : State → Plan) (h : s.seq = .idle) : s.issue plan = .next (s.runPlan (plan s)) := by
  rw [State.issue_eq, State.settle_idle s h]

/-- Running the command that does nothing, at a boundary, changes nothing. -/
theorem State.runPlan_nothing (h : s.seq = .idle) : s.runPlan .nothing = s := by
  rw [State.runPlan_eq]
  cases s
  simp_all [Plan.nothing, Finish.keep, Finish.flagAfter, Finish.modeAfter, Chips.reactAll]

/-! ### One step -/

/-- Everything a step that answers a next state can have done. -/
theorem step_cases {s t : State} (h : step s = .next t) :
    ((∃ es f, s.seq = .busy es f) ∧ t = s.microStep) ∨
    (s.seq = .idle ∧ s.inbox = [] ∧ t = s) ∨
    (∃ c rest i u, s.seq = .idle ∧ s.inbox = c :: rest ∧ decode c.word = .ok i ∧
      exec i (s.present c rest) = .next u ∧ t = u.dropBuffer) := by
  unfold step at h
  split at h
  · rename_i es f hs
    exact .inl ⟨⟨es, f, hs⟩, by simpa using h.symm⟩
  · rename_i hs
    split at h
    · rename_i hi
      exact .inr (.inl ⟨hs, hi, by simpa using h.symm⟩)
    · rename_i c rest hi
      split at h
      · cases h
      · rename_i i hr
        refine .inr (.inr ⟨c, rest, i, ?_⟩)
        have hd : decode c.word = .ok i := by
          unfold readCommand at hr
          split at hr
          · rename_i j hj; cases hr; exact hj
          · cases hr
        cases he : exec i (s.present c rest) with
        | next u =>
          rw [he] at h
          exact ⟨u, hs, hi, hd, rfl, by simpa [afterCommand] using h.symm⟩
        | fault r => rw [he] at h; cases h
        | refused r => rw [he] at h; cases h

end Sys2Proof.Machine
end

