-- ==== Sys2Proof/Laws/Dispatch.lean ====
section
/-! SUPPORT. Every command but SELF_TEST is the run of its event list: the one fact about exec that claims over all
commands cite. -/

namespace Sys2Proof.Machine

/-- A command with an event list runs it, from the next command boundary. -/
theorem exec_of_planOf {i : Instr} {s : State} {p : Plan} (h : planOf i s.settle = some p) :
    exec i s = .next (s.settle.runPlan p) := by
  cases i <;> simp only [planOf, Option.some.injEq, reduceCtorEq] at h <;> subst h <;> rfl

/-- A command that answers a next state ran its event list. -/
theorem planOf_of_exec {i : Instr} {s t : State} (h : exec i s = .next t) :
    ∃ p, planOf i s.settle = some p ∧ t = s.settle.runPlan p := by
  cases i with
  | selfTest => cases h
  | printText invert length =>
    exact ⟨_, rfl, (Host.Outcome.next.inj ((exec_of_planOf (i := .printText invert length) rfl).symm.trans h)).symm⟩
  | printNumber value =>
    exact ⟨_, rfl, (Host.Outcome.next.inj ((exec_of_planOf (i := .printNumber value) rfl).symm.trans h)).symm⟩
  | printRaw length =>
    exact ⟨_, rfl, (Host.Outcome.next.inj ((exec_of_planOf (i := .printRaw length) rfl).symm.trans h)).symm⟩
  | displayEnable => exact ⟨_, rfl, (Host.Outcome.next.inj ((exec_of_planOf (i := .displayEnable) rfl).symm.trans h)).symm⟩
  | displayDisable =>
    exact ⟨_, rfl, (Host.Outcome.next.inj ((exec_of_planOf (i := .displayDisable) rfl).symm.trans h)).symm⟩
  | enterNormalMode =>
    exact ⟨_, rfl, (Host.Outcome.next.inj ((exec_of_planOf (i := .enterNormalMode) rfl).symm.trans h)).symm⟩
  | enterSpecialMode =>
    exact ⟨_, rfl, (Host.Outcome.next.inj ((exec_of_planOf (i := .enterSpecialMode) rfl).symm.trans h)).symm⟩
  | setBrightness level =>
    exact ⟨_, rfl, (Host.Outcome.next.inj ((exec_of_planOf (i := .setBrightness level) rfl).symm.trans h)).symm⟩

end Sys2Proof.Machine
end

