-- ==== Sys2Proof/Laws/Memory.lean ====
section
/-! SUPPORT. The canonical form of a buffer and what reading it gives. -/

namespace Sys2Proof.Machine

theorem Memory.ofBytesFrom_index_ge (bs : List Byte) (k : Nat) : ∀ c ∈ Memory.ofBytesFrom k bs, k ≤ c.1 := by
  induction bs generalizing k with
  | nil => simp [Memory.ofBytesFrom]
  | cons b bs ih =>
    intro c hc
    rcases List.mem_cons.mp hc with rfl | hc
    · exact Nat.le_refl _
    · have := ih (k + 1) c hc; omega

theorem Memory.ofBytesFrom_wf (bs : List Byte) (k : Nat) : (Memory.ofBytesFrom k bs).wf := by
  induction bs generalizing k with
  | nil => exact List.Pairwise.nil
  | cons b bs ih =>
    refine List.pairwise_cons.mpr ⟨fun c hc => ?_, ih (k + 1)⟩
    have := Memory.ofBytesFrom_index_ge bs (k + 1) c hc
    show k < c.1
    omega

/-- A caller's buffer is in canonical form. -/
theorem Memory.ofBytes_wf (bs : List Byte) : (Memory.ofBytes bs).wf := Memory.ofBytesFrom_wf bs 0

theorem Memory.wf_nil : Memory.wf [] := List.Pairwise.nil

theorem Memory.read_ofBytesFrom (bs : List Byte) (k i : Nat) :
    (Memory.ofBytesFrom k bs).read (k + i) = bs[i]? := by
  induction bs generalizing k i with
  | nil => simp [Memory.ofBytesFrom, Memory.read]
  | cons b bs ih =>
    cases i with
    | zero => simp [Memory.ofBytesFrom, Memory.read]
    | succ i =>
      have := ih (k + 1) i
      rw [show k + 1 + i = k + (i + 1) by omega] at this
      simp [Memory.ofBytesFrom, Memory.read, this]

/-- The byte at an index of a caller's buffer. -/
@[simp] theorem Memory.read_ofBytes (bs : List Byte) (i : Nat) : (Memory.ofBytes bs).read i = bs[i]? := by
  have := Memory.read_ofBytesFrom bs 0 i
  rwa [Nat.zero_add] at this

/-- An entry of the ROM never has its dot bit set (40_encoder.md R60 item 2). -/
theorem romRead_dot (k : Fin 96) : romRead k &&& 0x80#8 = 0#8 := by
  rw [romRead]
  generalize Config.segTable k = p
  revert p
  decide

end Sys2Proof.Machine
end

