-- ==== Sys2Proof/Laws/Operands.lean ====
section
/-! SUPPORT. What the operand operations give. -/

namespace Sys2Proof.Machine

theorem bufByte_supplied {s : State} {length k : Nat} {b : Byte} (h : k < length) (hb : s.buf.read k = some b) :
    bufByte s length k = b := by
  simp [bufByte, h, hb]

theorem bufByte_unsupplied {s : State} {length k : Nat} (h : length ≤ k ∨ s.buf.read k = none) :
    bufByte s length k = Config.freeByte s.freeStream s.freeDraws k := by
  rcases h with h | h
  · simp [bufByte, Nat.not_lt.mpr h]
  · simp [bufByte, h]

theorem romIndex_low {code : Byte} (h : charValue code < 32) : romIndex code = 0 := by
  rw [romIndex, if_pos h]

theorem romIndex_high {code : Byte} {k : Fin 96} (h : charValue code = k.val + 32) : romIndex code = k := by
  simp [romIndex, h]

/-- ENCODE reads the same entry whatever the dot flag. -/
theorem romIndex_dot : ∀ code : Byte,
    romIndex (code ||| 0x80#8) = romIndex code ∧ romIndex (code &&& 0x7F#8) = romIndex code := by decide

end Sys2Proof.Machine
end

