-- ==== Sys2Proof/Laws/PerInstr.lean ====
section
/-! SUPPORT. A family of facts about each command as syntax: the opcode its word carries (30_encoding.md R53). -/

namespace Sys2Proof.Laws

/-- The opcode map (30_encoding.md R53). -/
def opcodeOf : Instr → BitVec 4
  | .printText _ _ => 0x1
  | .printNumber _ => 0x2
  | .printRaw _ => 0x3
  | .displayEnable => 0x4
  | .displayDisable => 0x5
  | .enterNormalMode => 0x6
  | .enterSpecialMode => 0x7
  | .setBrightness _ => 0x8
  | .selfTest => 0x9

/-- The word of a command carries its opcode in bits 31:28 and zeros in bits 27:17. -/
def WordOpcode.Statement (i : Instr) : Prop := opField (encode i) = opcodeOf i ∧ zeroField (encode i) = 0#11

theorem WordOpcode.printText (invert : Bool) (length : Nat) : WordOpcode.Statement (.printText invert length) :=
  ⟨opField_packWord _ _ _ _, zeroField_packWord _ _ _ _⟩

theorem WordOpcode.printNumber (value : BitVec 16) : WordOpcode.Statement (.printNumber value) :=
  ⟨opField_packWord _ _ _ _, zeroField_packWord _ _ _ _⟩

theorem WordOpcode.printRaw (length : Nat) : WordOpcode.Statement (.printRaw length) :=
  ⟨opField_packWord _ _ _ _, zeroField_packWord _ _ _ _⟩

theorem WordOpcode.displayEnable : WordOpcode.Statement .displayEnable :=
  ⟨opField_packWord _ _ _ _, zeroField_packWord _ _ _ _⟩

theorem WordOpcode.displayDisable : WordOpcode.Statement .displayDisable :=
  ⟨opField_packWord _ _ _ _, zeroField_packWord _ _ _ _⟩

theorem WordOpcode.enterNormalMode : WordOpcode.Statement .enterNormalMode :=
  ⟨opField_packWord _ _ _ _, zeroField_packWord _ _ _ _⟩

theorem WordOpcode.enterSpecialMode : WordOpcode.Statement .enterSpecialMode :=
  ⟨opField_packWord _ _ _ _, zeroField_packWord _ _ _ _⟩

theorem WordOpcode.setBrightness (level : Byte) : WordOpcode.Statement (.setBrightness level) :=
  ⟨opField_packWord _ _ _ _, zeroField_packWord _ _ _ _⟩

theorem WordOpcode.selfTest : WordOpcode.Statement .selfTest :=
  ⟨opField_packWord _ _ _ _, zeroField_packWord _ _ _ _⟩

end Sys2Proof.Laws
end

