-- ==== Sys2Proof/Laws/Wire.lean ====
section
/-! SUPPORT. What the shift-out primitives do to the registers and to the chips. -/

namespace Sys2Proof.Machine

@[simp] theorem wire8_length (p : Byte) : (wire8 p).length = 8 := rfl

@[simp] theorem shiftBit_length (b : Bit) : (shiftBit b).length = 3 := rfl

theorem flatMap_shiftBit_length (bs : List Bit) : (bs.flatMap shiftBit).length = 3 * bs.length := by
  induction bs with
  | nil => rfl
  | cons b bs ih => simp only [List.flatMap_cons, List.length_append, ih, shiftBit_length, List.length_cons]; omega

@[simp] theorem shiftPattern_length (p : Byte) : (shiftPattern p).length = 24 := by
  rw [shiftPattern, flatMap_shiftBit_length, wire8_length]

theorem flatMap_shiftPattern_length (ps : List Byte) : (ps.flatMap shiftPattern).length = 24 * ps.length := by
  induction ps with
  | nil => rfl
  | cons p ps ih =>
    simp only [List.flatMap_cons, List.length_append, ih, shiftPattern_length, List.length_cons]; omega

theorem frame_length (ps : List Byte) : (frame ps).length = 24 * ps.length + 2 := by
  rw [frame, List.length_append, flatMap_shiftPattern_length]; rfl

/-- Shifting bits leaves `CLK` low and `SDI` at the last of them. -/
theorem Pins.applyAll_shiftBits (p : Pins) (bs : List Bit) (h : bs ≠ []) :
    p.applyAll (bs.flatMap shiftBit) = { p with sdi := bs.getLast h, clk := false } := by
  induction bs generalizing p with
  | nil => exact absurd rfl h
  | cons b bs ih =>
    rw [List.flatMap_cons, Pins.applyAll_append]
    by_cases hb : bs = []
    · subst hb; rfl
    · rw [ih _ hb, List.getLast_cons hb]; rfl

/-- With the clock idle low, the chain takes in exactly the bits shifted. -/
theorem Chips.reactAll_shiftBits (g n : Nat) (p : Pins) (c : Chips) (bs : List Bit) (h : p.clk = false) :
    Chips.reactAll g n p c (bs.flatMap shiftBit) = { c with sr := c.sr ++ bs } := by
  induction bs generalizing p c with
  | nil => simp [Chips.reactAll]
  | cons b bs ih =>
    rw [List.flatMap_cons, Chips.reactAll_append,
      show Chips.reactAll g n p c (shiftBit b) = c.shiftIn b by
        simp [Chips.reactAll, shiftBit, clockPulse, Chips.react, Pins.apply, Pins.write, h],
      ih _ _ (by rfl)]
    simp [Chips.shiftIn]

/-- With the latch line idle low, a latch pulse copies the newest bits to the outputs. -/
theorem Chips.reactAll_latchPulse (g n : Nat) (p : Pins) (c : Chips) (h : p.le = false) :
    Chips.reactAll g n p c latchPulse = c.latch g n := by
  simp [Chips.reactAll, latchPulse, Chips.react, h]

theorem Pins.applyAll_latchPulse (p : Pins) : p.applyAll latchPulse = { p with le := false } := rfl

theorem flatMap_shiftPattern (ps : List Byte) : ps.flatMap shiftPattern = (ps.flatMap wire8).flatMap shiftBit := by
  rw [List.flatMap_assoc]; rfl

theorem wire8_flatMap_ne_nil {ps : List Byte} (h : ps ≠ []) : ps.flatMap wire8 ≠ [] := by
  cases ps with
  | nil => exact absurd rfl h
  | cons p ps => exact fun hn => by simpa using congrArg List.length hn

theorem wire8_flatMap_getLast (ps : List Byte) (h : ps ≠ []) :
    (ps.flatMap wire8).getLast (wire8_flatMap_ne_nil h) = (ps.getLast h).getLsbD 1 := by
  have hl : ∀ p : Byte, (wire8 p).getLast? = some (p.getLsbD 1) := by decide
  have hr : ps.flatMap wire8 = ps.dropLast.flatMap wire8 ++ wire8 (ps.getLast h) := by
    conv_lhs => rw [← List.dropLast_append_getLast h]
    simp
  have hne : wire8 (ps.getLast h) ≠ [] := fun hn => by simpa using congrArg List.length hn
  have := hl (ps.getLast h)
  rw [List.getLast?_eq_some_getLast hne, Option.some.injEq] at this
  simp only [hr, List.getLast_append_of_ne_nil _ hne, this]

/-- The registers after a frame of at least one pattern. -/
theorem Pins.applyAll_frame (p : Pins) (ps : List Byte) (h : ps ≠ []) :
    p.applyAll (frame ps) = { p with sdi := (ps.getLast h).getLsbD 1, clk := false, le := false } := by
  rw [frame, Pins.applyAll_append, flatMap_shiftPattern, Pins.applyAll_shiftBits _ _ (wire8_flatMap_ne_nil h),
    wire8_flatMap_getLast ps h]
  rfl

/-- The chips after a frame sent from idle lines. -/
theorem Chips.reactAll_frame (g n : Nat) (p : Pins) (c : Chips) (ps : List Byte) (hc : p.clk = false)
    (hl : p.le = false) :
    Chips.reactAll g n p c (frame ps) =
      { c with sr := c.sr ++ ps.flatMap wire8, out := newestBits g (8 * n) (c.sr ++ ps.flatMap wire8) } := by
  have hle : (p.applyAll ((ps.flatMap wire8).flatMap shiftBit)).le = false := by
    by_cases h : ps.flatMap wire8 = []
    · rw [h]; exact hl
    · rw [Pins.applyAll_shiftBits _ _ h]; exact hl
  rw [frame, Chips.reactAll_append, flatMap_shiftPattern, Chips.reactAll_shiftBits _ _ _ _ _ hc,
    Chips.reactAll_latchPulse _ _ _ _ hle]
  rfl

/-- A frame writes `SDI`, `CLK` and `LE` only. -/
@[simp] theorem Pins.applyAll_frame_oe (p : Pins) (ps : List Byte) : (p.applyAll (frame ps)).oe = p.oe := by
  by_cases h : ps = []
  · subst h; rfl
  · rw [Pins.applyAll_frame _ _ h]

/-- The registers after MODE_PREFIX. -/
theorem Pins.applyAll_modePrefix (p : Pins) :
    p.applyAll modePrefix = { p with clk := false, oe := some (.level true) } := by
  cases p; rfl

/-- The registers after the special sequence. -/
theorem Pins.applyAll_specialSequence (p : Pins) :
    p.applyAll specialSequence = { p with clk := false, le := false, oe := some (.level true) } := by
  cases p; rfl

/-- The registers after the normal sequence. -/
theorem Pins.applyAll_normalSequence (p : Pins) :
    p.applyAll normalSequence = { p with clk := false, oe := some (.level true) } := by
  cases p; rfl

/-- A print command run from idle lines, field by field. -/
theorem State.runPlan_frame (s : State) (ps : List Byte) (d : Nat) (hs : s.seq = .idle)
    (hc : s.pins.clk = false) (hl : s.pins.le = false) (h : ps ≠ []) :
    s.runPlan ⟨frame ps, .keep, d⟩ =
      { s with
        pins := { s.pins with sdi := (ps.getLast h).getLsbD 1 }
        trace := s.trace ++ frame ps
        chips := { s.chips with
          sr := s.chips.sr ++ ps.flatMap wire8
          out := newestBits s.freeStream (8 * s.config.n) (s.chips.sr ++ ps.flatMap wire8) }
        freeDraws := s.freeDraws + d } := by
  rw [State.runPlan_eq]
  simp only [Pins.applyAll_frame _ _ h, Chips.reactAll_frame _ _ _ _ _ hc hl]
  obtain ⟨cfg, e, ⟨sdi, clk, le, oe⟩, tr, q, ch, b, i, g, f⟩ := s
  simp only at hs hc hl
  subst hs hc hl
  rfl

@[simp] theorem newestBits_length (g m : Nat) (sr : List Bit) : (newestBits g m sr).length = m := by
  simp only [newestBits, List.length_append, List.length_reverse, List.length_map, List.length_range, List.length_drop]
  omega

/-- The newest bits of a chain that just took in that many are those bits. -/
theorem newestBits_exact (g : Nat) (sr bs : List Bit) : newestBits g bs.length (sr ++ bs) = bs := by
  simp [newestBits]

/-- Bits just taken in are the newest; the rest of a window comes from what the chain held before. -/
theorem newestBits_append (g m : Nat) (sr bs : List Bit) (h : bs.length ≤ m) :
    newestBits g m (sr ++ bs) = newestBits g (m - bs.length) sr ++ bs := by
  simp only [newestBits, List.length_append, List.append_assoc]
  rw [show m - (sr.length + bs.length) = m - bs.length - sr.length by omega,
    show sr.length + bs.length - m = sr.length - (m - bs.length) by omega,
    List.drop_append_of_le_length (by omega)]

theorem flatMap_wire8_length (ps : List Byte) : (ps.flatMap wire8).length = 8 * ps.length := by
  induction ps with
  | nil => rfl
  | cons p ps ih => simp only [List.flatMap_cons, List.length_append, ih, wire8_length, List.length_cons]; omega

theorem patternOfWire_wire8 (p : Byte) : patternOfWire (wire8 p) = p := by
  revert p; decide

end Sys2Proof.Machine
end

