-- ==== Sys2Proof/Laws/Phase.lean ====
section
/-! SUPPORT. The shape of 41_shift_primitives.md R68 on the lists the commands are built from. -/

namespace Sys2Proof.Machine

theorem Phase.after_append (ph : Phase) (es fs : List Event) :
    ph.after (es ++ fs) = (ph.after es).bind fun ph' => ph'.after fs := by
  induction es generalizing ph with
  | nil => rfl
  | cons e es ih =>
    show (match ph.next e with | none => none | some ph' => ph'.after (es ++ fs)) = _
    rw [show ph.after (e :: es) = (match ph.next e with | none => none | some ph' => ph'.after es) from rfl]
    cases ph.next e with
    | none => rfl
    | some ph' => exact ih ph'

/-- Well-shaped lists follow one another. -/
theorem wellShaped_append {es fs : List Event} (h : wellShaped es) (h' : wellShaped fs) : wellShaped (es ++ fs) := by
  rw [wellShaped, Phase.after_append, h]
  exact h'

theorem wellShaped_nil : wellShaped [] := rfl

theorem wellShaped_shiftBit (b : Bit) : wellShaped (shiftBit b) := rfl

theorem wellShaped_latchPulse : wellShaped latchPulse := rfl

theorem wellShaped_specialSequence : wellShaped specialSequence := rfl

theorem wellShaped_normalSequence : wellShaped normalSequence := rfl

theorem wellShaped_shiftBits (bs : List Bit) : wellShaped (bs.flatMap shiftBit) := by
  induction bs with
  | nil => exact wellShaped_nil
  | cons b bs ih => exact wellShaped_append (wellShaped_shiftBit b) ih

theorem wellShaped_frame (ps : List Byte) : wellShaped (frame ps) := by
  rw [frame, flatMap_shiftPattern]
  exact wellShaped_append (wellShaped_shiftBits _) wellShaped_latchPulse

end Sys2Proof.Machine
end

