-- ==== Sys2Proof/Tests/Slice0.lean ====
section
/-! SUPPORT. Tests against the vectors of 95_test_vectors.md, and a witness for the hypotheses of every statement. -/

namespace Sys2Proof.Tests

open Sys2Proof.Machine

/-! ### WellFormed: each check refuses an ill-formed term -/

theorem test_wellFormed_refuses_long_text : (Instr.printText false 65536).wellFormed = false := by decide
theorem test_wellFormed_refuses_long_raw : (Instr.printRaw 65536).wellFormed = false := by decide
theorem test_wellFormed_accepts_longest : (Instr.printText true 65535).wellFormed = true := by decide

/-! ### Decoding: words written out from 30_encoding.md R51, R53; section 2.9 -/

theorem test_decode_printText : decode 0b00010000000000010000000000000011#32 = .ok (.printText true 3) := by decide
theorem test_decode_printNumber : decode 0b00100000000000001011111011101111#32 = .ok (.printNumber 0xBEEF) := by decide
theorem test_decode_printRaw : decode 0b00110000000000000000000000000010#32 = .ok (.printRaw 2) := by decide
theorem test_decode_displayEnable : decode 0b01000000000000000000000000000000#32 = .ok .displayEnable := by decide
theorem test_decode_displayDisable : decode 0b01010000000000000000000000000000#32 = .ok .displayDisable := by decide
theorem test_decode_enterNormalMode : decode 0b01100000000000000000000000000000#32 = .ok .enterNormalMode := by decide
theorem test_decode_enterSpecialMode : decode 0b01110000000000000000000000000000#32 = .ok .enterSpecialMode := by decide
theorem test_decode_setBrightness : decode 0b10000000000000000000000011001000#32 = .ok (.setBrightness 200) := by decide
theorem test_decode_selfTest : decode 0b10010000000000000000000000000000#32 = .ok .selfTest := by decide
theorem test_decode_refuses_op_0 : decode 0x00000000#32 = .error (.reservedOpcode 0) := by decide
theorem test_decode_refuses_op_A : decode 0xA0000000#32 = .error (.reservedOpcode 10) := by decide
theorem test_decode_refuses_arg : decode 0x40000001#32 = .error .argSet := by decide
theorem test_decode_refuses_inv : decode 0x20010000#32 = .error .invSet := by decide
theorem test_decode_refuses_level : decode 0x80000100#32 = .error .levelHighSet := by decide
theorem test_decode_refuses_zero : decode 0x10020003#32 = .error .zeroFieldSet := by decide

/-! ### ENCODE with the fixture ROM_ID (section 2.1) and the wire (section 2.2) -/

/-- Fixture ROM_ID: entry `k` is `k`. -/
def romId (k : Fin 96) : Byte := BitVec.ofNat 8 k.val

theorem test_encode_low : encodeWith romId 0x1F = 0x00 ∧ encodeWith romId 0x20 = 0x00 := by decide
theorem test_encode_high : encodeWith romId 0x7E = 0x5E ∧ encodeWith romId 0x7F = 0x5F := by decide
theorem test_encode_dot : encodeWith romId 0x9F = 0x80 ∧ encodeWith romId 0xC1 = 0xA1 ∧ encodeWith romId 0xFF = 0xDF := by
  decide

/-- `S[w0…w7]` of section 0: the events of a byte whose wire levels are given. -/
def wires (bits : List Bit) : List Event := bits.flatMap fun b => [.write .sdi b, .write .clk true, .write .clk false]

/-- The bits of a string of eight wire levels, given as a number, first shifted most significant. -/
def levels (w : Byte) : List Bit := [w.getLsbD 7, w.getLsbD 6, w.getLsbD 5, w.getLsbD 4, w.getLsbD 3, w.getLsbD 2, w.getLsbD 1,
  w.getLsbD 0]

theorem test_shift_11 : shiftPattern 0x21 = wires (levels 0b00110000) := by decide
theorem test_shift_13 : shiftPattern 0x5A = wires (levels 0b01000111) := by decide
theorem test_shift_single_bits :
    [0x80, 0x10, 0x20, 0x01, 0x04, 0x40, 0x08, 0x02].map wire8 =
      [0x80, 0x40, 0x20, 0x10, 0x08, 0x04, 0x02, 0x01].map levels := by decide

/-! ### Commands -/

/-- An instance of `n` chips, just constructed. -/
def chain (n : Nat) (oe : Bool) : State :=
  State.configure 0 4 ⟨n, ⟨1⟩, ⟨2⟩, ⟨3⟩, if oe then some ⟨4⟩ else none⟩

/-- The same with a buffer presented. -/
def chainWith (n : Nat) (oe : Bool) (bytes : List Byte) : State := { chain n oe with buf := Memory.ofBytes bytes }

/-- The same with the display enabled. -/
def litChain (n : Nat) : State :=
  { chain n true with enable := .enabled, pins := { (chain n true).pins with oe := some (.level false) } }

/-- The same with one command to be handed over. -/
def given (s : State) (l : AsmLine) : State := { s with inbox := [l.command] }

/-- The next state of an outcome. -/
def nextOf : Host.Outcome State Fault Refusal → Option State
  | .next s => some s
  | .fault _ => none
  | .refused _ => none

/-- X1 of section 1, for an arbitrary table. -/
theorem test_printText_example :
    (nextOf (exec (.printText false 3) (chainWith 3 true [0x31, 0x00, 0x00]))).map State.trace =
      some (shiftPattern (romRead 0 ||| 0#8) ++ shiftPattern (romRead 0 ||| 0#8) ++ shiftPattern (romRead 17 ||| 0#8) ++
        [.latchUp, .latchDown]) := by rfl

theorem test_printText_invert_reads_forward :
    (nextOf (exec (.printText true 2) (chainWith 2 true [0xB1, 0x41]))).map State.trace =
      some (shiftPattern (romRead 17 ||| 0x80#8) ++ shiftPattern (romRead 33 ||| 0#8) ++ [.latchUp, .latchDown]) := by rfl

/-- V-PNUM-1. -/
theorem test_printNumber_low_byte_first :
    (nextOf (exec (.printNumber 0x1234) (chain 2 false))).map State.trace =
      some (wires (levels 0b01101000) ++ wires (levels 0b01000001) ++ [.latchUp, .latchDown]) := by decide

/-- V-PNUM-3. -/
theorem test_printNumber_one_chip :
    (nextOf (exec (.printNumber 0xFFFF) (chain 1 false))).map State.trace =
      some (wires (levels 0b11111111) ++ [.latchUp, .latchDown]) := by decide

/-- V-PRAW-1. -/
theorem test_printRaw_backwards :
    (nextOf (exec (.printRaw 3) (chainWith 3 false [0x01, 0x02, 0x04]))).map State.trace =
      some (wires (levels 0b00001000) ++ wires (levels 0b00000001) ++ wires (levels 0b00010000) ++
        [.latchUp, .latchDown]) := by decide

/-- V-PRAW-1, the observer. -/
theorem test_printRaw_shown :
    (nextOf (exec (.printRaw 3) (chainWith 3 false [0x01, 0x02, 0x04]))).map
      (fun s => [s.chips.shown 0, s.chips.shown 1, s.chips.shown 2]) = some [0x01, 0x02, 0x04] := by decide

/-- V-MODE-1. -/
theorem test_enterSpecialMode :
    (nextOf (exec .enterSpecialMode (litChain 1))).map (fun s => (s.enable, s.pins.oe, s.trace.length)) =
      some (.disabled, some (.level true), 17) := by decide

/-- V-OBS-1: the second command of the vector, from the chain its first command leaves. -/
theorem test_enterSpecialMode_disturbs_the_chain :
    (nextOf (exec .enterSpecialMode
      { chain 1 true with chips := { mode := .normal, sr := levels 0b11111110, out := levels 0b11111110 } })).map
      (fun s => s.chips.shown 0) = some 0xB0 := by decide

/-- V-MODE-3. -/
theorem test_enterNormalMode_enabled :
    (nextOf (exec .enterNormalMode (litChain 1))).map (fun s => (s.enable, s.pins.oe, s.trace.length)) =
      some (.enabled, some (.level false), 18) := by decide

/-- V-MODE-4. -/
theorem test_enterNormalMode_disabled :
    (nextOf (exec .enterNormalMode (chain 1 true))).map (fun s => (s.enable, s.pins.oe, s.trace.length)) =
      some (.disabled, some (.level true), 17) := by decide

/-- V-EN-1. -/
theorem test_displayEnable :
    (nextOf (exec .displayEnable (chain 1 true))).map (fun s => (s.enable, s.pins.oe, s.trace)) =
      some (.enabled, some (.level false), [.oeDown]) := by decide

/-- V-EN-4. -/
theorem test_displayEnable_without_line :
    (nextOf (exec .displayEnable (chain 1 false))).map (fun s => (s.enable, s.pins.oe, s.trace)) =
      some (.disabled, none, []) := by decide

/-- V-EN-3. -/
theorem test_displayDisable :
    (nextOf (exec .displayDisable (litChain 1))).map (fun s => (s.enable, s.pins.oe, s.trace)) =
      some (.disabled, some (.level true), [.oeUp]) := by decide

/-- V-BR-3. -/
theorem test_setBrightness :
    (nextOf (exec (.setBrightness 200) (chain 1 true))).map (fun s => (s.enable, s.pins.oe, s.trace)) =
      some (.disabled, some (.pwm 55), [.pwm 55]) := by decide

/-- V-BR-5. -/
theorem test_setBrightness_without_line :
    (nextOf (exec (.setBrightness 10) (chain 1 false))).map (fun s => (s.enable, s.pins.oe, s.trace)) =
      some (.disabled, none, [.diag]) := by decide

/-- V-DEC-10. -/
theorem test_selfTest_refused : step (given (chain 1 true) .stest) = .refused .selfTestNotSpecified := by rfl

/-- A step takes the command the host hands over: P1's first command, `'2'.` being 0xB2. -/
theorem test_step_runs_the_first_command :
    (nextOf (step (given (chain 3 true) (.praw [.quoted '1' false, .quoted '2' true, .number 0x33] 3)))).map
      (fun s => (s.inbox, s.buf, s.trace.length, s.chips.shown 1)) = some ([], [], 74, 0xB2) := by decide

/-- The last micro-step of a command drops its buffer (20_memory.md R30). -/
theorem test_busy_step_drops_the_buffer :
    (nextOf (step ((chainWith 1 true [7]).accept ⟨[], .keep, 1⟩))).map (fun s => (s.seq, s.buf)) = some (.idle, []) := by
  decide

/-- The second instance of a launch draws from a stream of its own (60_exceptions.md R105). -/
theorem test_launch_separates_free_values :
    (match launch 4 [⟨1, ⟨1⟩, ⟨2⟩, ⟨3⟩, none⟩, ⟨1, ⟨4⟩, ⟨5⟩, ⟨6⟩, none⟩] with
      | .next ss => ss.map State.freeStream
      | .fault _ => []
      | .refused _ => []) = [0, 1] := by decide

theorem test_step_refuses_a_word : step { chain 1 true with inbox := [⟨0x00000000, []⟩] } =
    .refused (.notACommand (.reservedOpcode 0)) := by rfl

/-- The first command after reset runs, whatever the open construction arguments are. -/
theorem test_reset_runs_a_table_word :
    (nextOf (step (State.reset.withFetchWord 32 0x20001234))).isSome = true := by decide

theorem test_clamp : [(0 : Int), -3, 1, 4, 5].map (clampChips 1 4) = [1, 1, 1, 4, 4] := by decide

/-! ### Witnesses: states and operands that meet the hypotheses of the statements -/

/-- The idle lines every print and mode statement asks for. -/
theorem witness_idle_lines : (chain 3 true).seq = .idle ∧ (chain 3 true).pins.clk = false ∧ (chain 3 true).pins.le = false ∧
    0 < (chain 3 true).config.n ∧ 2 ≤ (chain 3 true).config.n ∧ (chain 3 true).hasOE = true := by decide

theorem witness_ChipCountIsClampedToNearestBound :
    (1 ≤ 4) ∧ ((0 : Int) < (1 : Nat)) ∧ (((4 : Nat) : Int) < 5) ∧ (((1 : Nat) : Int) ≤ 4 ∧ (4 : Int) ≤ (4 : Nat)) ∧
    (⟨0, ⟨1⟩, ⟨2⟩, ⟨3⟩, none⟩ : Construction).requestedChips = 0 := by decide

theorem witness_StepRunsTheDecodedCommand :
    (given (chain 1 true) .den).seq = .idle ∧ (given (chain 1 true) .den).inbox = [AsmLine.den.command] ∧
    decode AsmLine.den.command.word = .ok .displayEnable ∧
    (∃ t, exec .displayEnable { given (chain 1 true) .den with buf := AsmLine.den.command.buf, inbox := [] } = .next t) ∧
    decode AsmLine.stest.command.word = .ok .selfTest ∧
    (∃ r, exec .selfTest { given (chain 1 true) .stest with buf := AsmLine.stest.command.buf, inbox := [] } = .refused r) :=
  ⟨rfl, rfl, rfl, ⟨_, rfl⟩, rfl, ⟨_, rfl⟩⟩

theorem witness_WithFetchWordIsRunNext :
    decodeTableWord 32 0x40000000 = some .displayEnable ∧
    ∃ t, exec .displayEnable { chain 1 true with seq := .idle } = .next t := ⟨rfl, _, rfl⟩

theorem witness_IdleBlockHoldsItsLines : (chain 1 true).seq = .idle ∧ (chain 1 true).inbox = [] := by decide

theorem witness_BusyBlockEmitsOneEventAStep :
    ((chain 1 true).accept ⟨[], .keep, 0⟩).seq = .busy [] .keep ∧
    ((chain 1 true).accept ⟨[.diag], .keep, 0⟩).seq = .busy [.diag] .keep := by decide

theorem witness_DecodeOfEncode : (Instr.printText true 65535).wellFormed = true := by decide

theorem witness_EncodeOfDecode : decode 0x10010003#32 = .ok (.printText true 3) := by decide

theorem witness_StepRefusesWordThatIsNoCommand :
    ({ chain 1 true with inbox := [⟨0xA0000000, []⟩] } : State).seq = .idle ∧
    decode 0xA0000000#32 = .error (.reservedOpcode 10) := by decide

theorem witness_AssemblerLineIsItsCommand : (AsmLine.ptext [.quoted '1' true] 3 true).instr.wellFormed = true := by decide

theorem witness_EncodeLooksUpTheTable :
    ((0x1F#8 &&& 0x7F#8).toNat < 32) ∧ ((0x20#8 &&& 0x7F#8).toNat = (0 : Fin 96).val + 32) ∧
    ((0xFF#8 &&& 0x7F#8).toNat = (95 : Fin 96).val + 32) ∧ ∃ rom : Fin 96 → Byte, rom 17 = 0x21#8 :=
  ⟨by decide, by decide, by decide, fun _ => 0x21#8, rfl⟩

theorem witness_EncodeKeepsTheDotApart : (0x7F#8).toNat < 128 := by decide

theorem witness_WireOrderIsAPermutation : wire8 0x21 = wire8 0x21 ∧ (levels 0b10110000).length = 8 := by decide

theorem witness_LatchCommitsTheShiftedBits :
    (chain 1 true).config.n = 1 ∧ (chain 1 true).pins.clk = false ∧ (chain 1 true).pins.le = false := by decide

theorem witness_BufferReadsSuppliedBytes :
    (chainWith 3 true [7, 8]).buf = Memory.ofBytes [7, 8] ∧ (1 < 2) ∧ ([7, 8] : List Byte)[1]? = some 8 ∧ 2 ≤ 2 ∧
    ([7, 8] : List Byte).length ≤ 2 := by decide

theorem witness_PrintReadsOnlyTheFirstNBytes :
    (chainWith 2 true [7, 8, 9]).seq = .idle ∧ (chainWith 2 true [7, 8, 9]).config.n ≤ 2 ∧
    (chainWith 2 true [7, 8, 9]).config.n ≤ 3 ∧
    ∀ k, k < (chainWith 2 true [7, 8, 9]).config.n →
      ∃ b, (chainWith 2 true [7, 8, 9]).buf.read k = some b ∧ (Memory.ofBytes [7, 8]).read k = some b := by
  refine ⟨by decide, by decide, by decide, fun k hk => ?_⟩
  have hk : k < 2 := hk
  interval_cases k
  · exact ⟨7, by decide⟩
  · exact ⟨8, by decide⟩

/-- A chain of three whose outputs show what its register holds. -/
def latchedChain : State :=
  { chain 3 false with
    chips := { mode := .normal
               sr := levels 0x12 ++ levels 0x34 ++ levels 0x56
               out := levels 0x12 ++ levels 0x34 ++ levels 0x56 } }

theorem witness_PrintNumberMovesOldContentsTwoChips :
    latchedChain.seq = .idle ∧ latchedChain.pins.clk = false ∧ latchedChain.pins.le = false ∧
    2 ≤ latchedChain.config.n ∧ 0 + 2 < latchedChain.config.n ∧
    latchedChain.chips.out = newestBits latchedChain.freeStream (8 * latchedChain.config.n) latchedChain.chips.sr := by decide

theorem witness_ChipsNeverInfluenceTheBlock :
    State.sameBlock (given latchedChain .den) (given (chain 3 false) .den) ∧
    (∃ t, runSteps 1 (given latchedChain .den) = .next t) ∧
    State.sameBlock (given latchedChain .stest) (given (chain 3 false) .stest) ∧
    (∃ r, runSteps 1 (given latchedChain .stest) = .refused r) :=
  ⟨rfl, ⟨_, rfl⟩, rfl, ⟨_, rfl⟩⟩

theorem witness_without_line : (chain 3 false).seq = .idle ∧ (chain 3 false).hasOE = false := by decide

theorem witness_EnableWritesReachTheEnablePin :
    (litChain 1).seq = .idle ∧ (litChain 1).config.enablePin = some ⟨4⟩ ∧ (litChain 1).enable = .enabled ∧
    (chain 1 false).seq = .idle ∧ (chain 1 false).config.enablePin = none := by decide

theorem witness_LevelWritesCancelPwm :
    ({ chain 1 true with pins := { (chain 1 true).pins with oe := some (.pwm 55) } } : State).hasOE = true ∧
    ({ chain 1 true with pins := { (chain 1 true).pins with oe := some (.pwm 55) } } : State).pins.oe = some (.pwm 55) ∧
    ({ chain 1 true with pins := { (chain 1 true).pins with oe := some (.pwm 55) } } : State).seq = .idle ∧
    Instr.enterNormalMode ∈ [Instr.displayEnable, .displayDisable, .enterSpecialMode, .enterNormalMode] := by decide

theorem witness_EveryCommandCompletes : Instr.displayEnable ≠ .selfTest ∧ (chain 1 true).seq = .idle := by decide

/-- For the statements about a step or a command that answers a next state, one that changes the flag and the line. -/
theorem witness_a_command_answers_next :
    (chain 1 true).seq = .idle ∧
    (∃ t, step (given (chain 1 true) .den) = .next t) ∧
    (∃ t, exec .displayEnable (chain 1 true) = .next t ∧ t.enable ≠ (chain 1 true).enable ∧
      t.pins.oe ≠ (chain 1 true).pins.oe) :=
  ⟨rfl, ⟨_, rfl⟩, ⟨_, rfl, by decide, by decide⟩⟩

theorem witness_MicroStepsRefineTheAtomicCommand :
    (chain 1 true).seq = .idle ∧
    planOf .enterSpecialMode (chain 1 true) = some ⟨specialSequence, .special, 0⟩ ∧ 17 ≤ specialSequence.length := by decide

/-- A chain of one chip, within the bounds whatever MAX_CHIPS is, with a command to be handed over. -/
theorem witness_StepKeepsTheInvariant :
    (given (chain 1 true) .den).Inv ∧ ∃ t, step (given (chain 1 true) .den) = .next t := by
  refine ⟨⟨⟨by decide, Nat.le_add_right _ _, rfl, rfl, rfl, ?_, fun _ => rfl, by decide⟩, ⟨rfl, rfl⟩,
    ⟨List.Pairwise.nil, ?_, fun _ => rfl⟩⟩, _, rfl⟩
  · intro b hb
    cases hb
    rfl
  · intro c hc
    cases List.mem_singleton.mp hc
    exact List.Pairwise.nil

theorem witness_FiniteCommandListRunsToItsEnd :
    (given (chain 1 true) .den).seq = .idle ∧
    ∀ c ∈ (given (chain 1 true) .den).inbox, ∃ i, decode c.word = .ok i ∧ i ≠ .selfTest := by
  refine ⟨rfl, fun c hc => ?_⟩
  cases List.mem_singleton.mp hc
  exact ⟨.displayEnable, rfl, by decide⟩

/-- Two constructions that name pin 1 both, and two that share none. -/
theorem witness_LaunchNeedsDisjointPins :
    (∃ (a b : Nat) (p : PinId), a < b ∧
      (∃ x y, [(⟨1, ⟨1⟩, ⟨2⟩, ⟨3⟩, none⟩ : Construction), ⟨1, ⟨4⟩, ⟨5⟩, ⟨1⟩, none⟩][a]? = some x ∧
        [(⟨1, ⟨1⟩, ⟨2⟩, ⟨3⟩, none⟩ : Construction), ⟨1, ⟨4⟩, ⟨5⟩, ⟨1⟩, none⟩][b]? = some y ∧
        p ∈ pinsNamed x ∧ p ∈ pinsNamed y)) ∧
    (∀ (a b : Nat) (x y : Construction), a < b →
      [(⟨1, ⟨1⟩, ⟨2⟩, ⟨3⟩, none⟩ : Construction), ⟨1, ⟨4⟩, ⟨5⟩, ⟨6⟩, none⟩][a]? = some x →
      [(⟨1, ⟨1⟩, ⟨2⟩, ⟨3⟩, none⟩ : Construction), ⟨1, ⟨4⟩, ⟨5⟩, ⟨6⟩, none⟩][b]? = some y →
      ∀ p ∈ pinsNamed x, p ∉ pinsNamed y) := by
  refine ⟨⟨0, 1, ⟨1⟩, by decide, _, _, rfl, rfl, by decide, by decide⟩, fun a b x y hab hx hy => ?_⟩
  obtain ⟨hb, rfl⟩ := List.getElem?_eq_some_iff.mp hy
  obtain ⟨ha, rfl⟩ := List.getElem?_eq_some_iff.mp hx
  have hb : b < 2 := hb
  obtain rfl : b = 1 := by omega
  obtain rfl : a = 0 := by omega
  show ∀ p ∈ ([⟨1⟩, ⟨2⟩, ⟨3⟩] : List PinId), p ∉ ([⟨4⟩, ⟨5⟩, ⟨6⟩] : List PinId)
  decide

theorem witness_InstancesAreIndependent :
    (∃ ts, stepInstance 0 [given (chain 1 true) .den, chain 2 false] = .next ts) ∧
    [given (chain 1 true) .den, chain 2 false][0]? = some (given (chain 1 true) .den) :=
  ⟨⟨_, rfl⟩, rfl⟩

end Sys2Proof.Tests
end

section
/-! PROOFS of the encoding family: the wire order of a pattern as a permutation of its bits (30_encoding.md R47, R48),
and the levels of `OE` and `LE` at the clock edges of the mode sequences (R50). -/

namespace Sys2Proof.Machine

/-! ### The wire order -/

/-- Each wire mask is the power of two of the pattern bit in R47's table. -/
theorem wireMask_eq_map_twoPow : wireMask = [7, 4, 5, 0, 2, 6, 3, 1].map (BitVec.twoPow 8) := by decide

theorem and_twoPow_ne_zero (p : Byte) {k : Nat} (hk : k < 8) :
    decide (p &&& BitVec.twoPow 8 k ≠ 0) = p.getLsbD k := by
  have hpos : BitVec.twoPow 8 k ≠ 0 := fun hz => by simpa [hk] using congrArg (BitVec.getLsbD · k) hz
  rw [BitVec.and_twoPow]
  cases p.getLsbD k with
  | false => rfl
  | true => exact decide_eq_true hpos

theorem wire8_eq_map_getLsbD (p : Byte) : wire8 p = [7, 4, 5, 0, 2, 6, 3, 1].map p.getLsbD := by
  rw [wire8, wireMask_eq_map_twoPow, List.map_map]
  refine List.map_congr_left fun k hk => and_twoPow_ne_zero p ?_
  have hlt : ∀ i ∈ [7, 4, 5, 0, 2, 6, 3, 1], i < 8 := by decide
  exact hlt k hk

/-- The observer puts a wire level back into one bit of the pattern (20_memory.md R42). -/
theorem getLsbD_ite_or_twoPow (p : Byte) (b : Bit) (k j : Nat) (hj : j < 8) :
    (if b then p ||| BitVec.twoPow 8 k else p).getLsbD j = (p.getLsbD j || (b && decide (k = j))) := by
  cases b with
  | false => simp
  | true => simp [hj, eq_comm]

/-- The observer's reading is also a right inverse: any eight levels are those of the pattern read from them. -/
theorem wire8_patternOfWire (bits : List Bit) (h : bits.length = 8) : wire8 (patternOfWire bits) = bits := by
  match bits, h with
  | [b7, b4, b5, b0, b2, b6, b3, b1], _ =>
    simp only [wire8_eq_map_getLsbD, patternOfWire, wireMask_eq_map_twoPow, List.map_cons, List.map_nil,
      List.zip_cons_cons, List.zip_nil_right, List.foldl_cons, List.foldl_nil, getLsbD_ite_or_twoPow, Nat.reduceLT]
    simp

theorem wire8_injective : Function.Injective wire8 :=
  Function.LeftInverse.injective patternOfWire_wire8

/-! ### Rising clock edges -/

theorem edgeLevels_append (p : Pins) (es fs : List Event) :
    edgeLevels p (es ++ fs) = edgeLevels p es ++ edgeLevels (p.applyAll es) fs := by
  induction es generalizing p with
  | nil => rfl
  | cons e es ih =>
    simp only [List.cons_append, edgeLevels, ih, List.append_assoc]
    rfl

/-- Only raising `CLK` makes an edge. -/
theorem edgeLevels_cons_of_ne {e : Event} (h : e ≠ .clockUp) (p : Pins) (es : List Event) :
    edgeLevels p (e :: es) = edgeLevels (p.apply e) es := by
  rw [edgeLevels, if_neg fun hup => h hup.1, List.nil_append]

theorem edgeLevels_clockPulse {p : Pins} (hclk : p.clk = false) : edgeLevels p clockPulse = [(p.oe, p.le)] := by
  simp [clockPulse, edgeLevels, hclk]

/-- From a low clock line a clock pulse makes one edge, and leaves the registers as they were. -/
theorem edgeLevels_clockPulse_append {p : Pins} (hclk : p.clk = false) (es : List Event) :
    edgeLevels p (clockPulse ++ es) = (p.oe, p.le) :: edgeLevels p es := by
  have hback : p.applyAll clockPulse = p := by
    cases p
    cases hclk
    rfl
  rw [edgeLevels_append, hback, edgeLevels_clockPulse hclk, List.singleton_append]

/-- The four edges the two mode sequences begin with (43_mode_control.md R79). -/
theorem edgeLevels_modePrefix {p : Pins} (hclk : p.clk = false) :
    edgeLevels p modePrefix =
      [(some (.level true), p.le), (some (.level false), p.le), (some (.level true), p.le),
       (some (.level true), p.le)] := by
  simp [modePrefix, edgeLevels_cons_of_ne, edgeLevels_clockPulse_append, edgeLevels_clockPulse, Pins.apply,
    Pins.write, hclk]

/-- Of the last two edges of the special sequence, the first finds `LE` high and the second low. -/
theorem edgeLevels_specialSequence (p : Pins) :
    edgeLevels p specialSequence =
      edgeLevels p modePrefix ++ [(some (.level true), true), (some (.level true), false)] := by
  simp [specialSequence, edgeLevels_append p modePrefix, Pins.applyAll_modePrefix, edgeLevels_cons_of_ne,
    edgeLevels_clockPulse_append, edgeLevels_clockPulse, Pins.apply, Pins.write]

/-- The last three edges of the normal sequence leave `LE` alone. -/
theorem edgeLevels_normalSequence (p : Pins) :
    edgeLevels p normalSequence = edgeLevels p modePrefix ++ List.replicate 3 (some (.level true), p.le) := by
  simp [normalSequence, edgeLevels_append p modePrefix, Pins.applyAll_modePrefix,
    edgeLevels_clockPulse_append, edgeLevels_clockPulse, List.replicate]

/-! ### The statements -/

/-- Settles O15: each mask tests one bit, and the observer's reading inverts the wire order on both sides. -/
theorem wireOrderIsAPermutation : Obligations.WireOrderIsAPermutation :=
  ⟨wire8_eq_map_getLsbD, fun _ _ heq => wire8_injective heq, fun bits h =>
    ⟨patternOfWire bits, wire8_patternOfWire bits h⟩⟩

/-- Settles O32: the edges of the shared prefix, then those of each tail from the registers the prefix leaves. -/
theorem modeSequenceEdgeLevels : Obligations.ModeSequenceEdgeLevels := by
  intro p hclk hle
  refine ⟨?_, ?_, ?_, ?_⟩
  · rw [edgeLevels_specialSequence, edgeLevels_modePrefix hclk, hle]
    rfl
  · rw [edgeLevels_normalSequence, edgeLevels_modePrefix hclk, hle]
    rfl
  · rw [Pins.applyAll_specialSequence]
  · rw [Pins.applyAll_normalSequence]

end Sys2Proof.Machine
end

section
/-! PROOFS of the encoder family: the table entry ENCODE reads for each masked value, and the dot bit it puts back
(40_encoder.md R61). -/

namespace Sys2Proof.Machine

/-- A masked value below 32 is shown as the blank entry. -/
theorem encodeWith_of_charValue_lt (rom : Fin 96 → Byte) {code : Byte} (h : charValue code < 32) :
    encodeWith rom code = rom 0 ||| dotOf code := by
  rw [encodeWith, romIndex_low h]

/-- The printable values start at entry 0 of the table. -/
theorem encodeWith_of_charValue_eq (rom : Fin 96 → Byte) {code : Byte} {k : Fin 96}
    (h : charValue code = k.val + 32) : encodeWith rom code = rom k ||| dotOf code := by
  rw [encodeWith, romIndex_high h]

/-- R61's worked example: `'1'` has masked value 49, so it reads entry 17, without and with its dot. -/
theorem encodeWith_digitOne {rom : Fin 96 → Byte} (hrom : rom 17 = 0x21#8) :
    encodeWith rom 0x31#8 = 0x21#8 ∧ encodeWith rom 0xB1#8 = 0xA1#8 := by
  have hplain : charValue 0x31#8 = (17 : Fin 96).val + 32 := by decide
  have hdotted : charValue 0xB1#8 = (17 : Fin 96).val + 32 := by decide
  rw [encodeWith_of_charValue_eq rom hplain, encodeWith_of_charValue_eq rom hdotted, hrom]
  decide

/-- Settles O13: one lookup lemma for each range of the masked value; the block's ENCODE is `encodeWith` on its own
table by definition. -/
theorem encodeLooksUpTheTable : Obligations.EncodeLooksUpTheTable :=
  ⟨fun rom _ => ⟨encodeWith_of_charValue_lt rom, fun _ => encodeWith_of_charValue_eq rom⟩,
    fun _ => rfl, fun _ => encodeWith_digitOne⟩

end Sys2Proof.Machine
end

section
/-! PROOFS of the shift primitive family: the events of CLOCK_PULSE and SHIFT_PATTERN and the registers they leave
(41_shift_primitives.md R64, R66). -/

namespace Sys2Proof.Machine

theorem Pins.applyAll_clockPulse (p : Pins) : p.applyAll clockPulse = { p with clk := false } := rfl

/-- A pattern is shifted bit by bit, in the wire order of 30_encoding.md R47. -/
theorem shiftPattern_eq_flatMap_getLsbD (p : Byte) :
    shiftPattern p = ([7, 4, 5, 0, 2, 6, 3, 1].map p.getLsbD).flatMap shiftBit := by
  rw [shiftPattern, wire8_eq_map_getLsbD]

/-- The last bit shifted, bit 1 (segment D), is the one `SDI` keeps. -/
theorem Pins.applyAll_shiftPattern (q : Pins) (p : Byte) :
    q.applyAll (shiftPattern p) = { q with sdi := p.getLsbD 1, clk := false } := by
  rw [shiftPattern_eq_flatMap_getLsbD]
  exact Pins.applyAll_shiftBits q _ (List.cons_ne_nil _ _)

/-- Settles O16: what emitting does to trace, registers and flag, at the two events of the pulse. -/
theorem clockPulseRaisesThenLowersTheClock : Obligations.ClockPulseRaisesThenLowersTheClock := by
  intro s
  refine ⟨s.emitAll_trace clockPulse, ?_, s.emitAll_enable clockPulse, edgeLevels_clockPulse⟩
  rw [State.emitAll_pins, Pins.applyAll_clockPulse]

/-- Settles O17: the wire order gives the event list, and the registers are those after its last bit. -/
theorem shiftPatternEmitsTwentyFourEvents : Obligations.ShiftPatternEmitsTwentyFourEvents := by
  intro p s
  refine ⟨?_, s.emitAll_trace _, ?_, s.emitAll_enable _⟩
  · rw [shiftPattern_eq_flatMap_getLsbD]
    rfl
  · rw [State.emitAll_pins, Pins.applyAll_shiftPattern]

end Sys2Proof.Machine
end

section
/-! PROOFS of the mode control family: the events of MODE_PREFIX (43_mode_control.md R79), and both mode transitions
without an enable line (R82). -/

namespace Sys2Proof.Machine

/-- A command whose event list is empty is a full no-op at a command boundary. -/
theorem exec_of_planOf_nothing {i : Instr} {s : State} (hs : s.seq = .idle) (hp : planOf i s = some .nothing) :
    exec i s = .next s := by
  have hsettle : s.settle = s := s.settle_idle hs
  rw [exec_of_planOf (hsettle.symm ▸ hp), hsettle, s.runPlan_nothing hs]

/-- Without an enable line ENTER_SPECIAL_MODE has nothing to do. -/
theorem planEnterSpecialMode_of_not_hasOE {s : State} (h : s.hasOE = false) : planEnterSpecialMode s = .nothing := by
  simp [planEnterSpecialMode, h]

/-- Without an enable line ENTER_NORMAL_MODE has nothing to do, not even the inner DISPLAY_ENABLE. -/
theorem planEnterNormalMode_of_not_hasOE {s : State} (h : s.hasOE = false) : planEnterNormalMode s = .nothing := by
  simp [planEnterNormalMode, h]

/-- Settles O31: the listed events and their counts by evaluation, the final `OE` level from the registers after the
prefix. -/
theorem modePrefixEvents : Obligations.ModePrefixEvents := by
  refine ⟨rfl, rfl, by decide, fun p => ?_⟩
  rw [Pins.applyAll_modePrefix]

/-- Settles O35: without an enable line the event list of either transition is empty. -/
theorem modeTransitionsNeedAnEnableLine : Obligations.ModeTransitionsNeedAnEnableLine := by
  intro s hidle hline
  exact ⟨exec_of_planOf_nothing hidle (congrArg some (planEnterSpecialMode_of_not_hasOE hline)),
    exec_of_planOf_nothing hidle (congrArg some (planEnterNormalMode_of_not_hasOE hline))⟩

end Sys2Proof.Machine
end

section
/-! PROOFS of the command word: decode and encode are inverse, the refused words, and the assembler's words
(30_encoding.md R51 to R56; the format is the spec's decision D15). -/

namespace Sys2Proof

/-! ### The checks of the decoder -/

@[simp] theorem checkZero_eq_ok {zero : BitVec 11} {r : Except DecodeError Instr} {i : Instr} :
    checkZero zero r = .ok i ↔ zero = 0#11 ∧ r = .ok i := by
  unfold checkZero; split <;> simp [*]

@[simp] theorem checkInv_eq_ok {inv : Bool} {r : Except DecodeError Instr} {i : Instr} :
    checkInv inv r = .ok i ↔ inv = false ∧ r = .ok i := by
  unfold checkInv; split <;> simp [*]

@[simp] theorem checkArg_eq_ok {arg : BitVec 16} {r : Except DecodeError Instr} {i : Instr} :
    checkArg arg r = .ok i ↔ arg = 0#16 ∧ r = .ok i := by
  unfold checkArg; split <;> simp [*]

@[simp] theorem plainCommand_eq_ok {zero : BitVec 11} {inv : Bool} {arg : BitVec 16} {i j : Instr} :
    plainCommand zero inv arg i = .ok j ↔ zero = 0#11 ∧ inv = false ∧ arg = 0#16 ∧ i = j := by
  simp [plainCommand]

theorem brightnessCommand_eq_ok {arg : BitVec 16} {i : Instr} :
    brightnessCommand arg = .ok i ↔ arg.extractLsb' 8 8 = 0#8 ∧ .setBrightness (arg.extractLsb' 0 8) = i := by
  unfold brightnessCommand; split <;> simp [*]

/-- The level of SET_BRIGHTNESS under its zero byte. -/
theorem zero_append_extractLsb'_of_high_eq_zero {arg : BitVec 16} (h : arg.extractLsb' 8 8 = 0#8) :
    0#8 ++ arg.extractLsb' 0 8 = arg := by
  rw [← h]
  exact (BitVec.extractLsb'_append_extractLsb'_eq_extractLsb' rfl).trans BitVec.extractLsb'_eq_self

theorem brightnessCommand_zero_append (level : Byte) :
    brightnessCommand (0#8 ++ level) = .ok (.setBrightness level) :=
  brightnessCommand_eq_ok.mpr
    ⟨BitVec.extractLsb'_append_eq_left, congrArg Instr.setBrightness BitVec.extractLsb'_append_eq_right⟩

/-! ### Decode and encode -/

/-- What the four fields of a command's word say, for each opcode of R53. -/
theorem decodeFields_eq_ok {op : BitVec 4} {zero : BitVec 11} {inv : Bool} {arg : BitVec 16} {i : Instr}
    (h : decodeFields op zero inv arg = .ok i) : i.wellFormed = true ∧ encode i = packWord op zero inv arg := by
  have hop : ∀ {k : Nat}, op.toNat = k → op = BitVec.ofNat 4 k := fun hk => by simp [← hk]
  unfold decodeFields at h
  split at h
  case h_1 hk =>
    obtain ⟨rfl, h⟩ := checkZero_eq_ok.mp h
    cases h; cases hop hk
    simp [Instr.wellFormed, encode, arg.isLt]
  case h_2 hk =>
    obtain ⟨rfl, h⟩ := checkZero_eq_ok.mp h
    obtain ⟨rfl, h⟩ := checkInv_eq_ok.mp h
    cases h; cases hop hk
    exact ⟨rfl, rfl⟩
  case h_3 hk =>
    obtain ⟨rfl, h⟩ := checkZero_eq_ok.mp h
    obtain ⟨rfl, h⟩ := checkInv_eq_ok.mp h
    cases h; cases hop hk
    simp [Instr.wellFormed, encode, arg.isLt]
  case h_8 hk =>
    obtain ⟨rfl, h⟩ := checkZero_eq_ok.mp h
    obtain ⟨rfl, h⟩ := checkInv_eq_ok.mp h
    obtain ⟨hhigh, rfl⟩ := brightnessCommand_eq_ok.mp h
    cases hop hk
    rw [encode, zero_append_extractLsb'_of_high_eq_zero hhigh]
    exact ⟨rfl, rfl⟩
  case h_10 => cases h
  all_goals
    next hk =>
    obtain ⟨rfl, rfl, rfl, rfl⟩ := plainCommand_eq_ok.mp h
    cases hop hk
    exact ⟨rfl, rfl⟩

theorem decode_packWord (op : BitVec 4) (zero : BitVec 11) (inv : Bool) (arg : BitVec 16) :
    decode (packWord op zero inv arg) = decodeFields op zero inv arg := by
  simp [decode]

theorem toNat_ofNat_of_length_lt {length : Nat} (h : length < 2 ^ 16) : (BitVec.ofNat 16 length).toNat = length :=
  Nat.mod_eq_of_lt h

/-- Settles O8: the fields of a packed word are the packed fields, so each opcode's arm sees its own operands. -/
theorem decodeOfEncode : Obligations.DecodeOfEncode := by
  intro i hwf
  cases i with
  | printText invert length =>
    rw [encode, decode_packWord]
    show Except.ok (Instr.printText invert (BitVec.ofNat 16 length).toNat) = _
    rw [toNat_ofNat_of_length_lt (of_decide_eq_true hwf)]
  | printRaw length =>
    rw [encode, decode_packWord]
    show Except.ok (Instr.printRaw (BitVec.ofNat 16 length).toNat) = _
    rw [toNat_ofNat_of_length_lt (of_decide_eq_true hwf)]
  | setBrightness level =>
    rw [encode, decode_packWord]
    exact brightnessCommand_zero_append level
  | printNumber value => rw [encode, decode_packWord]; rfl
  | displayEnable => rfl
  | displayDisable => rfl
  | enterNormalMode => rfl
  | enterSpecialMode => rfl
  | selfTest => rfl

/-- Settles O9: the decoder's arms read off the command's fields, and a word is the packing of its fields. -/
theorem encodeOfDecode : Obligations.EncodeOfDecode := by
  intro w i h
  obtain ⟨hwf, henc⟩ := decodeFields_eq_ok h
  exact ⟨hwf, henc.trans (packWord_fields w)⟩

/-! ### The refused words -/

theorem checkZero_error_iff {zero : BitVec 11} {r : Except DecodeError Instr} :
    (∃ e, checkZero zero r = .error e) ↔ zero ≠ 0#11 ∨ ∃ e, r = .error e := by
  unfold checkZero; split <;> simp [*]

theorem checkInv_error_iff {inv : Bool} {r : Except DecodeError Instr} :
    (∃ e, checkInv inv r = .error e) ↔ inv = true ∨ ∃ e, r = .error e := by
  unfold checkInv; split <;> simp [*]

theorem plainCommand_error_iff {zero : BitVec 11} {inv : Bool} {arg : BitVec 16} {i : Instr} :
    (∃ e, plainCommand zero inv arg i = .error e) ↔ zero ≠ 0#11 ∨ inv = true ∨ arg ≠ 0#16 := by
  rw [plainCommand, checkZero_error_iff, checkInv_error_iff]
  unfold checkArg; split <;> simp [*]

theorem brightnessCommand_error_iff {arg : BitVec 16} :
    (∃ e, brightnessCommand arg = .error e) ↔ arg.extractLsb' 8 8 ≠ 0#8 := by
  unfold brightnessCommand; split <;> simp [*]

/-- The refused field values, as R54 (b) lists them: each of the sixteen opcodes has its own checks. -/
theorem decodeFields_error_iff (op : BitVec 4) (zero : BitVec 11) (inv : Bool) (arg : BitVec 16) :
    (∃ e, decodeFields op zero inv arg = .error e) ↔
      (op = 0#4 ∨ 10#4 ≤ op ∨ zero ≠ 0#11 ∨ (op ≠ 1#4 ∧ inv = true) ∨
        ((op = 4#4 ∨ op = 5#4 ∨ op = 6#4 ∨ op = 7#4 ∨ op = 9#4) ∧ arg ≠ 0#16) ∨
        (op = 8#4 ∧ arg.extractLsb' 8 8 ≠ 0#8)) := by
  obtain ⟨⟨op, hop⟩⟩ := op
  interval_cases op <;>
    simp [decodeFields, checkZero_error_iff, checkInv_error_iff, plainCommand_error_iff, brightnessCommand_error_iff]

/-- Shifting the other fields out leaves the opcode. -/
theorem ushiftRight_eq_opField (w : CommandWord) : w >>> 28 = (opField w).setWidth 32 := by
  apply BitVec.eq_of_toNat_eq
  have hw : w.toNat < 2 ^ 32 := w.isLt
  simp only [opField, BitVec.toNat_ushiftRight, BitVec.toNat_setWidth, BitVec.extractLsb'_toNat,
    Nat.shiftRight_eq_div_pow]
  omega

theorem ushiftRight_eq_iff_opField (w : CommandWord) (k : BitVec 4) :
    w >>> 28 = k.setWidth 32 ↔ opField w = k := by
  rw [ushiftRight_eq_opField]
  exact ⟨fun h => by simpa using congrArg (BitVec.setWidth 4) h, fun h => h ▸ rfl⟩

theorem le_ushiftRight_iff_opField (w : CommandWord) (k : BitVec 4) :
    k.setWidth 32 ≤ w >>> 28 ↔ k ≤ opField w := by
  rw [ushiftRight_eq_opField, BitVec.le_def, BitVec.le_def]
  simp only [BitVec.toNat_setWidth]
  omega

theorem getLsbD_ones_shiftLeft {start len : Nat} (h : start + len ≤ 32) (k : Nat) :
    ((BitVec.allOnes len).setWidth 32 <<< start).getLsbD k = decide (start ≤ k ∧ k < start + len) := by
  rw [BitVec.getLsbD_shiftLeft, BitVec.getLsbD_setWidth, BitVec.getLsbD_allOnes, Bool.eq_iff_iff]
  simp only [Bool.and_eq_true, Bool.not_eq_true', decide_eq_true_eq, decide_eq_false_iff_not]
  omega

/-- A mask of consecutive ones tests the field it covers. -/
theorem and_ones_shiftLeft_eq_zero_iff (w : CommandWord) {start len : Nat} (h : start + len ≤ 32) :
    w &&& ((BitVec.allOnes len).setWidth 32 <<< start) = 0#32 ↔ w.extractLsb' start len = 0#len := by
  constructor
  · intro hz
    ext j hj
    have hbit := congrArg (·.getLsbD (start + j)) hz
    rw [BitVec.getLsbD_and, getLsbD_ones_shiftLeft h, decide_eq_true (by omega), Bool.and_true,
      BitVec.getLsbD_zero] at hbit
    rw [BitVec.getElem_extractLsb', hbit, BitVec.getElem_zero]
  · intro hz
    apply BitVec.eq_of_getLsbD_eq
    intro k _
    rw [BitVec.getLsbD_and, getLsbD_ones_shiftLeft h, BitVec.getLsbD_zero]
    by_cases hin : start ≤ k ∧ k < start + len
    · have hbit := congrArg (·.getLsbD (k - start)) hz
      rw [BitVec.getLsbD_extractLsb', decide_eq_true (by omega), Bool.true_and, Nat.add_sub_cancel' hin.1,
        BitVec.getLsbD_zero] at hbit
      rw [hbit, Bool.false_and]
    · rw [decide_eq_false hin, Bool.and_false]

/-- The high byte of the `arg` field, in place. -/
theorem extractLsb'_argField (w : CommandWord) : (argField w).extractLsb' 8 8 = w.extractLsb' 8 8 := by
  ext k hk
  simp [argField]

/-- Settles O10: the refused field values of R54 (b), each read through its mask or shift of the whole word. -/
theorem refusedWordsAreTheUnusedOnes : Obligations.RefusedWordsAreTheUnusedOnes := by
  intro w
  have hop := ushiftRight_eq_iff_opField w
  have hzero : w &&& 0x0FFE0000#32 = 0#32 ↔ zeroField w = 0#11 := by
    rw [show 0x0FFE0000#32 = (BitVec.allOnes 11).setWidth 32 <<< 17 by decide]
    exact and_ones_shiftLeft_eq_zero_iff w (by decide)
  have harg : w &&& 0xFFFF#32 = 0#32 ↔ argField w = 0#16 := by
    rw [show 0xFFFF#32 = (BitVec.allOnes 16).setWidth 32 <<< 0 by decide]
    exact and_ones_shiftLeft_eq_zero_iff w (by decide)
  have hhigh : w &&& 0xFF00#32 = 0#32 ↔ (argField w).extractLsb' 8 8 = 0#8 := by
    rw [extractLsb'_argField, show 0xFF00#32 = (BitVec.allOnes 8).setWidth 32 <<< 8 by decide]
    exact and_ones_shiftLeft_eq_zero_iff w (by decide)
  have hplain : (w >>> 28 = 4#32 ∨ w >>> 28 = 5#32 ∨ w >>> 28 = 6#32 ∨ w >>> 28 = 7#32 ∨ w >>> 28 = 9#32) ↔
      (opField w = 4#4 ∨ opField w = 5#4 ∨ opField w = 6#4 ∨ opField w = 7#4 ∨ opField w = 9#4) :=
    or_congr (hop 4) (or_congr (hop 5) (or_congr (hop 6) (or_congr (hop 7) (hop 9))))
  refine (decodeFields_error_iff _ _ _ _).trans (Iff.symm ?_)
  exact or_congr (hop 0) (or_congr (le_ushiftRight_iff_opField w 10) (or_congr (not_congr hzero)
    (or_congr (and_congr_left' (not_congr (hop 1))) (or_congr (and_congr hplain (not_congr harg))
      (and_congr (hop 8) (not_congr hhigh))))))

/-! ### The words of the assembler -/

/-- The fields of a word side by side, each shifted to its place. -/
theorem packWord_eq_or (op : BitVec 4) (inv : Bool) (arg : BitVec 16) :
    packWord op 0 inv arg =
      (op.setWidth 32 <<< 28) ||| ((BitVec.ofBool inv).setWidth 32 <<< 16) ||| arg.setWidth 32 := by
  apply BitVec.eq_of_getLsbD_eq
  intro k hk
  rw [packWord_getLsbD]
  have harg : 16 ≤ k → arg.getLsbD k = false := BitVec.getLsbD_of_ge arg k
  simp only [BitVec.ofNat_eq_ofNat, BitVec.getLsbD_zero, BitVec.getLsbD_or, BitVec.getLsbD_shiftLeft,
    BitVec.getLsbD_setWidth, BitVec.getLsbD_ofBool]
  grind

theorem setWidth_ofNat_of_length_lt {length : Nat} (h : length < 2 ^ 16) :
    (BitVec.ofNat 16 length).setWidth 32 = BitVec.ofNat 32 length := by
  apply BitVec.eq_of_toNat_eq
  simp only [BitVec.toNat_setWidth, BitVec.toNat_ofNat]
  omega

theorem encode_asmLine_instr {l : Machine.AsmLine} (h : l.instr.wellFormed = true) : encode l.instr = l.command.word := by
  cases l with
  | ptext bytes len inv =>
    show packWord 1 0 inv (BitVec.ofNat 16 len) = _
    rw [packWord_eq_or, setWidth_ofNat_of_length_lt (of_decide_eq_true h)]
    rfl
  | praw bytes len =>
    show packWord 3 0 false (BitVec.ofNat 16 len) = _
    rw [packWord_eq_or, setWidth_ofNat_of_length_lt (of_decide_eq_true h)]
    rfl
  | pnum value => exact packWord_eq_or 2 false value
  | bright level =>
    have hlow : (0#8 ++ level : BitVec (8 + 8)).setWidth 32 = level.setWidth 32 := by
      apply BitVec.eq_of_toNat_eq
      rw [BitVec.toNat_setWidth, BitVec.toNat_append]
      simp
    show packWord 8 0 false (0#8 ++ level) = _
    rw [packWord_eq_or, hlow]
    rfl
  | den => rfl
  | ddis => rfl
  | mnorm => rfl
  | mspec => rfl
  | stest => rfl

/-- Settles O12: R56's formulas are the packed fields of the command, which decodes back by O8. -/
theorem assemblerLineIsItsCommand : Obligations.AssemblerLineIsItsCommand := by
  intro l hwf
  have henc := encode_asmLine_instr hwf
  exact ⟨henc ▸ decodeOfEncode l.instr hwf, henc⟩

/-- Settles O7: each word evaluates to its command. -/
theorem specWordsDecode : Obligations.SpecWordsDecode :=
  ⟨rfl, rfl, rfl, rfl, rfl, rfl, rfl, rfl, rfl⟩

end Sys2Proof
end

section
/-! PROOFS of the dot bit through ENCODE (40_encoder.md R62). -/

namespace Sys2Proof.Machine

theorem dotOf_or_dot : ∀ c : Byte, dotOf (c ||| 0x80#8) = 0x80#8 ∧ dotOf c ||| 0x80#8 = 0x80#8 := by decide

theorem dotOf_masked : ∀ c : Byte,
    dotOf c &&& 0x80#8 = dotOf c ∧ dotOf c &&& 0x7F#8 = 0#8 ∧ dotOf (c &&& 0x7F#8) = 0#8 := by decide

theorem dotOf_of_toNat_lt : ∀ c : Byte, c.toNat < 128 → dotOf c = 0#8 := by decide

theorem romRead_and_low (k : Fin 96) : romRead k &&& 0x7F#8 = romRead k := by
  rw [romRead]
  generalize Config.segTable k = p
  revert p
  decide

/-- Bit 7 of an encoded character is the dot flag, since no table entry has it. -/
theorem encodeChar_and_dot (c : Byte) : encodeChar c &&& 0x80#8 = dotOf c := by
  obtain ⟨hdot, -, -⟩ := dotOf_masked c
  rw [encodeChar, encodeWith, BitVec.and_comm, BitVec.and_or_distrib_left, BitVec.and_comm, romRead_dot,
    BitVec.and_comm, hdot, BitVec.zero_or]

/-- The low seven bits of an encoded character are its table entry. -/
theorem encodeChar_and_low (c : Byte) : encodeChar c &&& 0x7F#8 = romRead (romIndex c) := by
  obtain ⟨-, hlow, -⟩ := dotOf_masked c
  rw [encodeChar, encodeWith, BitVec.and_comm, BitVec.and_or_distrib_left, BitVec.and_comm, romRead_and_low,
    BitVec.and_comm, hlow, BitVec.or_zero]

/-- Setting the dot flag of a code sets bit 7 of its encoding. -/
theorem encodeChar_or_dot (c : Byte) : encodeChar (c ||| 0x80#8) = encodeChar c ||| 0x80#8 := by
  obtain ⟨hset, habsorb⟩ := dotOf_or_dot c
  obtain ⟨hindex, -⟩ := romIndex_dot c
  rw [encodeChar, encodeChar, encodeWith, encodeWith, hindex, hset, BitVec.or_assoc, habsorb]

/-- Without its dot flag a code is encoded as its table entry alone. -/
theorem encodeChar_low (c : Byte) : encodeChar (c &&& 0x7F#8) = romRead (romIndex c) := by
  obtain ⟨-, -, hclear⟩ := dotOf_masked c
  obtain ⟨-, hindex⟩ := romIndex_dot c
  rw [encodeChar, encodeWith, hindex, hclear, BitVec.or_zero]

/-- Settles O14: the dot flag and the table entry are the two halves of an encoded character. -/
theorem encodeKeepsTheDotApart : Obligations.EncodeKeepsTheDotApart := fun c =>
  ⟨encodeChar_or_dot c,
    fun hlt => (encodeChar_and_dot c).trans (dotOf_of_toNat_lt c hlt),
    (encodeChar_and_low c).trans (encodeChar_low c).symm,
    encodeChar_and_dot c⟩

end Sys2Proof.Machine
end

section
/-! PROOFS of the step: a command taken from the host, the busy block, and what every command and every step keeps
(10_state.md R20, 60_exceptions.md R94, R106). -/

namespace Sys2Proof.Machine

/-! ### Commands from an idle block -/

/-- From an idle block a command runs its event list at once. -/
theorem exec_of_idle {i : Instr} {s : State} {p : Plan} (hs : s.seq = .idle) (hp : planOf i s = some p) :
    exec i s = .next (s.runPlan p) := by
  have hsettle := s.settle_idle hs
  rw [exec_of_planOf (hsettle.symm ▸ hp), hsettle]

/-- What an idle block's command answered is the run of its event list. -/
theorem runPlan_of_exec_idle {i : Instr} {s t : State} (hs : s.seq = .idle) (h : exec i s = .next t) :
    ∃ p, planOf i s = some p ∧ t = s.runPlan p := by
  simpa only [s.settle_idle hs] using planOf_of_exec h

/-- Only SELF_TEST has no event list. -/
theorem planOf_of_ne_selfTest {i : Instr} (h : i ≠ .selfTest) (s : State) : ∃ p, planOf i s = some p := by
  cases i with
  | selfTest => exact absurd rfl h
  | _ => exact ⟨_, rfl⟩

theorem exec_config {i : Instr} {s t : State} (h : exec i s = .next t) : t.config = s.config := by
  obtain ⟨p, -, rfl⟩ := planOf_of_exec h
  rw [State.runPlan_config, State.settle_config]

theorem exec_freeStream {i : Instr} {s t : State} (h : exec i s = .next t) : t.freeStream = s.freeStream := by
  obtain ⟨p, -, rfl⟩ := planOf_of_exec h
  rw [State.runPlan_freeStream, State.settle_freeStream]

/-- Settles O44: SELF_TEST's arm is the refusal. -/
theorem selfTestIsRefused : Obligations.SelfTestIsRefused := fun _ => rfl

/-- Settles O45: every other command has an event list, and its run ends idle. -/
theorem everyCommandCompletes : Obligations.EveryCommandCompletes := by
  intro i s hi hs
  obtain ⟨p, hp⟩ := planOf_of_ne_selfTest hi s
  exact ⟨s.runPlan p, exec_of_idle hs hp, s.runPlan_seq p⟩

/-- Settles O52: the run of an event list keeps the buffer. -/
theorem noCommandWritesMemory : Obligations.NoCommandWritesMemory := by
  intro i s t hs h k
  obtain ⟨p, -, rfl⟩ := runPlan_of_exec_idle hs h
  rw [State.runPlan_buf]

/-! ### One step, case by case -/

theorem step_of_busy {s : State} {es : List Event} {f : Finish} (h : s.seq = .busy es f) :
    step s = .next s.microStep := by
  simp [step, h]

theorem step_of_idle_nil {s : State} (hs : s.seq = .idle) (hi : s.inbox = []) : step s = .next s := by
  simp [step, hs, hi]

theorem step_of_idle_cons {s : State} {c : HostCommand} {rest : List HostCommand} {i : Instr} (hs : s.seq = .idle)
    (hi : s.inbox = c :: rest) (hd : decode c.word = .ok i) :
    step s = afterCommand (exec i (s.present c rest)) := by
  simp [step, hs, hi, readCommand, hd]

theorem step_of_undecodable {s : State} {c : HostCommand} {rest : List HostCommand} {e : DecodeError}
    (hs : s.seq = .idle) (hi : s.inbox = c :: rest) (hd : decode c.word = .error e) :
    step s = .refused (.notACommand e) := by
  simp [step, hs, hi, readCommand, hd]

theorem State.microStep_of_nil {s : State} {f : Finish} (h : s.seq = .busy [] f) :
    s.microStep = (s.finish f).dropBuffer := by
  simp [State.microStep, h]

theorem State.microStep_of_cons {s : State} {e : Event} {es : List Event} {f : Finish} (h : s.seq = .busy (e :: es) f) :
    s.microStep = { s.emit e with seq := .busy es f } := by
  simp [State.microStep, h]

theorem State.microStep_config (s : State) : s.microStep.config = s.config := by
  rw [← State.settle_config, State.settle_microStep, State.settle_config]

theorem State.microStep_freeStream (s : State) : s.microStep.freeStream = s.freeStream := by
  rw [← State.settle_freeStream, State.settle_microStep, State.settle_freeStream]

/-- Settles O3: the arm of `step` for a word that decodes, with each outcome of the command. -/
theorem stepRunsTheDecodedCommand : Obligations.StepRunsTheDecodedCommand := by
  intro s c rest i hs hi hd
  have hstep := step_of_idle_cons hs hi hd
  constructor
  · intro t (ht : exec i (s.present c rest) = .next t)
    rw [hstep, ht]
    rfl
  · intro r (hr : exec i (s.present c rest) = .refused r)
    rw [hstep, hr]
    rfl

/-- Settles O4: the word handed over first is the head of the inbox of an idle block, so this is O3. -/
theorem withFetchWordIsRunNext : Obligations.WithFetchWordIsRunNext := by
  intro s nbits w i hd t ht
  have hword : decode (tableWord nbits w) = .ok i := by
    unfold decodeTableWord at hd
    cases hr : decode (tableWord nbits w) with
    | ok j => rw [hr] at hd; exact congrArg Except.ok (Option.some.inj hd)
    | error e => rw [hr] at hd; cases hd
  obtain ⟨hnext, -⟩ := stepRunsTheDecodedCommand (s.withFetchWord nbits w) ⟨tableWord nbits w, s.buf⟩ s.inbox i
    rfl rfl hword
  exact hnext t ht

/-- Settles O5: the idle arm of `step` with an empty inbox. -/
theorem idleBlockHoldsItsLines : Obligations.IdleBlockHoldsItsLines := fun _ => step_of_idle_nil

/-- Settles O6: the two busy arms of a micro-step. -/
theorem busyBlockEmitsOneEventAStep : Obligations.BusyBlockEmitsOneEventAStep := by
  intro s f
  constructor
  · intro h
    exact ⟨s.microStep, step_of_busy h, by simp [State.microStep_of_nil h, Finish.flagAfter]⟩
  · intro e es h
    exact ⟨s.microStep, step_of_busy h, by simp [State.microStep_of_cons h]⟩

/-- Settles O11: the idle arm of `step` with a word that does not decode. -/
theorem stepRefusesWordThatIsNoCommand : Obligations.StepRefusesWordThatIsNoCommand :=
  fun _ _ _ _ => step_of_undecodable

/-- Settles O47: each of the three things a step can do keeps the configuration and the stream. -/
theorem stepKeepsTheConfiguration : Obligations.StepKeepsTheConfiguration := by
  intro s t h
  obtain ⟨-, rfl⟩ | ⟨-, -, rfl⟩ | ⟨c, rest, i, u, -, -, -, hu, rfl⟩ := step_cases h
  · exact ⟨s.microStep_config, s.microStep_freeStream⟩
  · exact ⟨rfl, rfl⟩
  · have hconfig := exec_config hu
    have hstream := exec_freeStream hu
    exact ⟨hconfig, hstream⟩

theorem State.microStep_trace (s : State) : ∃ es, s.microStep.trace = s.trace ++ es := by
  cases hq : s.seq with
  | idle => exact ⟨[], by simp [State.microStep, hq]⟩
  | busy rest f =>
    cases rest with
    | nil => exact ⟨[], by simp [State.microStep_of_nil hq]⟩
    | cons e es => exact ⟨[e], by simp [State.microStep_of_cons hq]⟩

/-- Settles O48: a micro-step adds at most its one event, a command its event list. -/
theorem eventsAreOnlyAppended : Obligations.EventsAreOnlyAppended := by
  intro s t h
  obtain ⟨-, rfl⟩ | ⟨-, -, rfl⟩ | ⟨c, rest, i, u, hs, -, -, hu, rfl⟩ := step_cases h
  · exact s.microStep_trace
  · exact ⟨[], (List.append_nil _).symm⟩
  · obtain ⟨p, -, rfl⟩ := runPlan_of_exec_idle (s := s.present c rest) hs hu
    exact ⟨p.events, by simp⟩

/-! ### Runs -/

theorem runSteps_succ {s t : State} (h : step s = .next t) (k : Nat) : runSteps (k + 1) s = runSteps k t := by
  simp [runSteps, h]

/-- While events are left, `k` steps of a busy block emit the next `k` of them. -/
theorem runSteps_of_busy (k : Nat) {s : State} {es : List Event} {f : Finish} (h : s.seq = .busy es f)
    (hk : k ≤ es.length) :
    runSteps k s = .next { s.emitAll (es.take k) with seq := .busy (es.drop k) f } := by
  induction k generalizing s es with
  | zero =>
    cases s
    cases h
    rfl
  | succ k ih =>
    cases es with
    | nil => exact absurd hk (Nat.not_succ_le_zero k)
    | cons e es =>
      rw [runSteps_succ (step_of_busy h), State.microStep_of_cons h, ih rfl (Nat.le_of_succ_le_succ hk),
        State.emitAll_withSeq]
      rfl

/-- One step more than there are events brings a busy block to its boundary. -/
theorem runSteps_of_busy_to_end {s : State} {es : List Event} {f : Finish} (h : s.seq = .busy es f) :
    runSteps (es.length + 1) s = .next s.settle := by
  induction es generalizing s with
  | nil =>
    rw [runSteps_succ (step_of_busy h), State.microStep_of_nil h, State.settle_busy s h]
    rfl
  | cons e es ih =>
    have hbusy : s.microStep.seq = .busy es f := by rw [State.microStep_of_cons h]
    rw [List.length_cons, runSteps_succ (step_of_busy h), ih hbusy, State.settle_microStep]

/-- Settles O53: the busy steps from acceptance, up to the last event and one beyond it. -/
theorem microStepsRefineTheAtomicCommand : Obligations.MicroStepsRefineTheAtomicCommand := by
  intro i s p hs hp
  constructor
  · intro k hk
    exact ⟨_, runSteps_of_busy k (s.accept_seq p) hk, rfl, by simp, by simp⟩
  · refine ⟨s.runPlan p, exec_of_idle hs hp, ?_⟩
    rw [runSteps_of_busy_to_end (s.accept_seq p), State.settle_accept]
    rfl

/-- An idle block that is handed a command other than SELF_TEST takes it and is idle again. -/
theorem step_completes {s : State} {c : HostCommand} {rest : List HostCommand} {i : Instr} (hs : s.seq = .idle)
    (hi : s.inbox = c :: rest) (hd : decode c.word = .ok i) (hne : i ≠ .selfTest) :
    ∃ t, step s = .next t ∧ t.seq = .idle ∧ t.inbox = rest ∧ t.config = s.config := by
  obtain ⟨p, hp⟩ := planOf_of_ne_selfTest hne (s.present c rest)
  refine ⟨((s.present c rest).runPlan p).dropBuffer, ?_, rfl, by simp, by simp⟩
  rw [step_of_idle_cons hs hi hd, exec_of_idle (s := s.present c rest) hs hp]
  rfl

/-- Settles O49: by induction on the host's commands, each step taking one. -/
theorem finiteCommandListRunsToItsEnd : Obligations.FiniteCommandListRunsToItsEnd := by
  intro s hs hall
  generalize hi : s.inbox = cs at hall
  induction cs generalizing s with
  | nil => exact ⟨s, rfl, ⟨hs, hi⟩, rfl⟩
  | cons c rest ih =>
    obtain ⟨i, hd, hne⟩ := hall c List.mem_cons_self
    obtain ⟨t, hstep, ht, hrest, hconfig⟩ := step_completes hs hi hd hne
    obtain ⟨u, hrun, hover, hu⟩ := ih t ht hrest fun c' hc' => hall c' (List.mem_cons_of_mem c hc')
    exact ⟨u, (runSteps_succ hstep _).trans hrun, hover, hu.trans hconfig⟩

end Sys2Proof.Machine
end

section
/-! PROOFS that the block never depends on the attached chips (10_state.md R25): the relation "same block" is kept by
every operation of a step, and so by runs. -/

namespace Sys2Proof.Machine

/-- A block beside other chips. -/
def State.withChips (s : State) (c : Chips) : State := { s with chips := c }

theorem State.sameBlock_iff {s s' : State} : s.sameBlock s' ↔ ∃ c, s' = s.withChips c :=
  ⟨fun h => ⟨s'.chips, h.symm⟩, by rintro ⟨c, rfl⟩; rfl⟩

section SameBlock
variable {s s' : State}

theorem State.sameBlock_seq (h : s.sameBlock s') : s'.seq = s.seq := by
  obtain ⟨c, rfl⟩ := State.sameBlock_iff.mp h
  rfl

theorem State.sameBlock_inbox (h : s.sameBlock s') : s'.inbox = s.inbox := by
  obtain ⟨c, rfl⟩ := State.sameBlock_iff.mp h
  rfl

theorem State.emitAll_sameBlock (h : s.sameBlock s') (es : List Event) : (s.emitAll es).sameBlock (s'.emitAll es) := by
  obtain ⟨c, rfl⟩ := State.sameBlock_iff.mp h
  simp only [State.emitAll_eq]
  rfl

theorem State.finish_sameBlock (h : s.sameBlock s') (f : Finish) : (s.finish f).sameBlock (s'.finish f) := by
  obtain ⟨c, rfl⟩ := State.sameBlock_iff.mp h
  rfl

theorem State.dropBuffer_sameBlock (h : s.sameBlock s') : s.dropBuffer.sameBlock s'.dropBuffer := by
  obtain ⟨c, rfl⟩ := State.sameBlock_iff.mp h
  rfl

theorem State.accept_sameBlock (h : s.sameBlock s') (p : Plan) : (s.accept p).sameBlock (s'.accept p) := by
  obtain ⟨c, rfl⟩ := State.sameBlock_iff.mp h
  rfl

theorem State.present_sameBlock (h : s.sameBlock s') (c : HostCommand) (rest : List HostCommand) :
    (s.present c rest).sameBlock (s'.present c rest) := by
  obtain ⟨c, rfl⟩ := State.sameBlock_iff.mp h
  rfl

theorem State.runPlan_sameBlock (h : s.sameBlock s') (p : Plan) : (s.runPlan p).sameBlock (s'.runPlan p) :=
  State.finish_sameBlock (State.emitAll_sameBlock (State.accept_sameBlock h p) p.events) p.finish

theorem State.microStep_sameBlock (h : s.sameBlock s') : s.microStep.sameBlock s'.microStep := by
  obtain ⟨c, rfl⟩ := State.sameBlock_iff.mp h
  have hq : (s.withChips c).seq = s.seq := rfl
  cases hs : s.seq with
  | idle => simpa [State.microStep, hq, hs] using h
  | busy es f =>
    cases es with
    | nil => rw [State.microStep_of_nil hs, State.microStep_of_nil (hq.trans hs)]; rfl
    | cons e es => rw [State.microStep_of_cons hs, State.microStep_of_cons (hq.trans hs)]; rfl

/-- No event list is computed from the chips. -/
theorem planOf_sameBlock (h : s.sameBlock s') (i : Instr) : planOf i s' = planOf i s := by
  obtain ⟨c, rfl⟩ := State.sameBlock_iff.mp h
  cases i <;> rfl

/-- Two outcomes that differ only in the observer state, refusals being the same. -/
inductive SameBlockOutcome : Host.Outcome State Fault Refusal → Host.Outcome State Fault Refusal → Prop where
  | next {t t' : State} (h : t.sameBlock t') : SameBlockOutcome (.next t) (.next t')
  | refused (r : Refusal) : SameBlockOutcome (.refused r) (.refused r)

theorem SameBlockOutcome.afterCommand {o o' : Host.Outcome State Fault Refusal} (h : SameBlockOutcome o o') :
    SameBlockOutcome (afterCommand o) (afterCommand o') := by
  cases h with
  | next h => exact .next (State.dropBuffer_sameBlock h)
  | refused r => exact .refused r

theorem exec_sameBlock (h : s.sameBlock s') (hs : s.seq = .idle) (i : Instr) :
    SameBlockOutcome (exec i s) (exec i s') := by
  by_cases hi : i = .selfTest
  · subst hi
    exact .refused _
  · obtain ⟨p, hp⟩ := planOf_of_ne_selfTest hi s
    rw [exec_of_idle hs hp, exec_of_idle ((State.sameBlock_seq h).trans hs) ((planOf_sameBlock h i).trans hp)]
    exact .next (State.runPlan_sameBlock h p)

theorem step_sameBlock (h : s.sameBlock s') : SameBlockOutcome (step s) (step s') := by
  have hq := State.sameBlock_seq h
  have hin := State.sameBlock_inbox h
  cases hs : s.seq with
  | busy es f =>
    rw [step_of_busy hs, step_of_busy (hq.trans hs)]
    exact .next (State.microStep_sameBlock h)
  | idle =>
    cases hi : s.inbox with
    | nil =>
      rw [step_of_idle_nil hs hi, step_of_idle_nil (hq.trans hs) (hin.trans hi)]
      exact .next h
    | cons c rest =>
      cases hd : decode c.word with
      | error e =>
        rw [step_of_undecodable hs hi hd, step_of_undecodable (hq.trans hs) (hin.trans hi) hd]
        exact .refused _
      | ok i =>
        rw [step_of_idle_cons hs hi hd, step_of_idle_cons (hq.trans hs) (hin.trans hi) hd]
        exact (exec_sameBlock (State.present_sameBlock h c rest) hs i).afterCommand

theorem runSteps_sameBlock (k : Nat) (h : s.sameBlock s') : SameBlockOutcome (runSteps k s) (runSteps k s') := by
  induction k generalizing s s' with
  | zero => exact .next h
  | succ k ih =>
    have hstep := step_sameBlock h
    unfold runSteps
    generalize step s = o, step s' = o' at hstep
    cases hstep with
    | next ht => exact ih ht
    | refused r => exact .refused r

end SameBlock

/-- Settles O30: the relation of outcomes, kept by runs, read in both of its cases. -/
theorem chipsNeverInfluenceTheBlock : Obligations.ChipsNeverInfluenceTheBlock := by
  intro k s s' h
  have hrun := runSteps_sameBlock k h
  constructor
  · intro t ht
    rw [ht] at hrun
    cases hr : runSteps k s' with
    | next t' => rw [hr] at hrun; cases hrun with | next h => exact ⟨t', rfl, h⟩
    | fault r => cases r
    | refused r => rw [hr] at hrun; cases hrun
  · intro r hr
    rw [hr] at hrun
    generalize runSteps k s' = o at hrun
    cases hrun
    rfl

end Sys2Proof.Machine
end

section
/-! PROOFS of construction and of the invariant: CONFIGURE (70_reset_and_hazards.md R107 to R110), and that every step
keeps what holds at command boundaries (10_state.md R14 to R16, R24, R26; 41_shift_primitives.md R68). -/

namespace Sys2Proof.Machine

/-! ### CONFIGURE -/

theorem clampChips_of_lt {lo hi : Nat} {r : Int} (h : r < (lo : Int)) : clampChips lo hi r = lo := if_pos h

theorem clampChips_of_gt {lo hi : Nat} {r : Int} (hle : lo ≤ hi) (h : (hi : Int) < r) : clampChips lo hi r = hi := by
  rw [clampChips, if_neg (by omega), if_pos h]

theorem clampChips_of_between {lo hi : Nat} {r : Int} (hlo : (lo : Int) ≤ r) (hhi : r ≤ (hi : Int)) :
    (clampChips lo hi r : Int) = r := by
  rw [clampChips, if_neg (by omega), if_neg (by omega)]
  omega

theorem clampChips_mem {lo hi : Nat} (hle : lo ≤ hi) (r : Int) : lo ≤ clampChips lo hi r ∧ clampChips lo hi r ≤ hi := by
  unfold clampChips
  split_ifs <;> omega

/-- Settles O1: field by field, the `OE` level by whether an enable pin was given. -/
theorem constructionSetsEveryRegister : Obligations.ConstructionSetsEveryRegister := by
  intro stream maxChips c
  refine ⟨rfl, Option.isSome_iff_exists, rfl, ?_, rfl, rfl, rfl⟩
  obtain ⟨n, d, ck, l, e⟩ := c
  cases e <;> rfl

/-- Settles O2: one clamp lemma for each range; 0 lies below MIN_CHIPS, which is 1. -/
theorem chipCountIsClampedToNearestBound : Obligations.ChipCountIsClampedToNearestBound := by
  intro lo hi r hle
  obtain ⟨hlo, hhi⟩ := clampChips_mem hle r
  refine ⟨clampChips_of_lt, clampChips_of_gt hle, clampChips_of_between, hlo, hhi, fun stream c hc => ?_⟩
  show clampChips Config.minChips hi c.requestedChips = 1
  rw [hc]
  exact clampChips_of_lt (by decide)

/-! ### The pulses of a trace tell the clock and latch levels -/

/-- The level of `CLK` in each phase of R68. -/
def Phase.clk : Phase → Bit
  | .clkHigh | .latchClk => true
  | .rest | .dataSet | .latchHigh | .latchPulsed => false

/-- The level of `LE` in each phase of R68. -/
def Phase.le : Phase → Bit
  | .latchHigh | .latchClk | .latchPulsed => true
  | .rest | .dataSet | .clkHigh => false

theorem Phase.next_levels {ph ph' : Phase} {e : Event} {p : Pins} (h : ph.next e = some ph') (hclk : p.clk = ph.clk)
    (hle : p.le = ph.le) : (p.apply e).clk = ph'.clk ∧ (p.apply e).le = ph'.le := by
  unfold Phase.next at h
  split at h
  case h_13 => cases h
  all_goals
    cases h
    simp_all [Phase.clk, Phase.le, Pins.apply, Pins.write, Pins.writePwm]

theorem Phase.after_levels {es : List Event} {ph ph' : Phase} {p : Pins} (h : ph.after es = some ph')
    (hclk : p.clk = ph.clk) (hle : p.le = ph.le) : (p.applyAll es).clk = ph'.clk ∧ (p.applyAll es).le = ph'.le := by
  induction es generalizing ph p with
  | nil => cases h; exact ⟨hclk, hle⟩
  | cons e es ih =>
    cases hn : ph.next e with
    | none => simp [Phase.after, hn] at h
    | some ph₁ =>
      have hrest : ph₁.after es = some ph' := by simpa [Phase.after, hn] using h
      obtain ⟨hclk₁, hle₁⟩ := Phase.next_levels hn hclk hle
      exact ih hrest hclk₁ hle₁

/-- Whole pulses leave the clock and latch lines low. -/
theorem applyAll_lines_low {es : List Event} (h : wellShaped es) {p : Pins} (hclk : p.clk = false) (hle : p.le = false) :
    (p.applyAll es).clk = false ∧ (p.applyAll es).le = false :=
  Phase.after_levels h hclk hle

theorem planOf_wellShaped {i : Instr} {s : State} {p : Plan} (h : planOf i s = some p) : wellShaped p.events := by
  cases i with
  | selfTest => cases h
  | printText invert length => cases h; exact wellShaped_frame _
  | printNumber value => cases h; exact wellShaped_frame _
  | printRaw length => cases h; exact wellShaped_frame _
  | displayEnable => cases h; unfold planDisplayEnable; split <;> rfl
  | displayDisable => cases h; unfold planDisplayDisable; split <;> rfl
  | setBrightness level => cases h; unfold planSetBrightness; split <;> rfl
  | enterSpecialMode => cases h; unfold planEnterSpecialMode; split <;> rfl
  | enterNormalMode =>
    cases h
    unfold planEnterNormalMode
    split
    · refine wellShaped_append wellShaped_normalSequence ?_
      unfold restoreEnable planDisplayEnable
      split
      · split <;> rfl
      · rfl
    · rfl

/-! ### The `OE` register and the flag -/

/-- What `OE` may hold beside the flag: with an enable line the level that goes with the flag, or any duty; without one
nothing, and the flag is as CONFIGURE left it. -/
inductive GoodLine : Bool → Option OeDrive → EnableState → Prop where
  | level (e : EnableState) : GoodLine true (some (.level e.oeLevel)) e
  | pwm (duty : Byte) (e : EnableState) : GoodLine true (some (.pwm duty)) e
  | absent : GoodLine false none resetEnable

theorem goodLine_iff {line : Bool} {oe : Option OeDrive} {e : EnableState} :
    GoodLine line oe e ↔
      oe.isSome = line ∧ (∀ b, oe = some (.level b) → b = e.oeLevel) ∧ (line = false → e = resetEnable) := by
  constructor
  · rintro (e | ⟨d, e⟩ | -) <;> simp
  · rintro ⟨rfl, hagree, habsent⟩
    match oe with
    | none => exact habsent rfl ▸ .absent
    | some (.pwm d) => exact .pwm d e
    | some (.level b) => exact hagree b rfl ▸ .level e

theorem State.GoodBoundary.goodLine {s : State} (h : s.GoodBoundary) : GoodLine s.hasOE s.pins.oe s.enable :=
  goodLine_iff.mpr ⟨h.oeExists, h.oeAgrees, h.noLine⟩

/-- After the normal sequence `OE` is high, and the inner DISPLAY_ENABLE of an enabled display lowers it again: it ends
at the level that goes with the flag (43_mode_control.md R81). -/
theorem applyAll_normalEvents {s : State} (hline : s.hasOE = true) (p : Pins) :
    p.applyAll (normalSequence ++ restoreEnable s.enable s) =
      { p with clk := false, oe := some (.level s.enable.oeLevel) } := by
  rw [Pins.applyAll_append, Pins.applyAll_normalSequence]
  cases s.enable with
  | disabled => rfl
  | enabled =>
    simp [restoreEnable, planDisplayEnable, hline, Pins.apply, Pins.write, EnableState.oeLevel, EnableState.bit]

theorem Finish.normal_flagAfter (e : EnableState) : (Finish.normal e).flagAfter e = e := by
  cases e <;> rfl

/-- The enable commands and mode transitions write `OE` together with the flag; the others write neither, and none
writes anything without an enable line. -/
theorem planOf_goodLine {i : Instr} {s : State} {p : Plan} (hp : planOf i s = some p)
    (h : GoodLine s.hasOE s.pins.oe s.enable) :
    GoodLine s.hasOE (s.pins.applyAll p.events).oe (p.finish.flagAfter s.enable) := by
  cases i with
  | selfTest => cases hp
  | printText invert length => cases hp; exact (Pins.applyAll_frame_oe s.pins _).symm ▸ h
  | printNumber value => cases hp; exact (Pins.applyAll_frame_oe s.pins _).symm ▸ h
  | printRaw length => cases hp; exact (Pins.applyAll_frame_oe s.pins _).symm ▸ h
  | displayEnable =>
    cases hp
    unfold planDisplayEnable
    split
    · next hline => exact hline ▸ .level .enabled
    · exact h
  | displayDisable =>
    cases hp
    unfold planDisplayDisable
    split
    · next hline => exact hline ▸ .level .disabled
    · exact h
  | setBrightness level =>
    cases hp
    unfold planSetBrightness
    split
    · next hline => exact hline ▸ .pwm (dutyOf level) s.enable
    · exact h
  | enterSpecialMode =>
    cases hp
    unfold planEnterSpecialMode
    split
    · next hline => rw [hline, Pins.applyAll_specialSequence]; exact .level .disabled
    · exact h
  | enterNormalMode =>
    cases hp
    unfold planEnterNormalMode
    split
    · next hline => rw [hline, applyAll_normalEvents hline, Finish.normal_flagAfter]; exact .level s.enable
    · exact h

/-! ### The outputs of the chips -/

theorem Chips.react_out_length {g n : Nat} {c : Chips} (h : c.out.length = 8 * n) (p : Pins) (e : Event) :
    (c.react g n p e).out.length = 8 * n := by
  unfold Chips.react
  split
  · split <;> exact h
  · split
    · exact h
    · exact newestBits_length _ _ _
  · exact h
  · exact h
  · exact h

theorem Chips.reactAll_out_length {g n : Nat} {c : Chips} (h : c.out.length = 8 * n) (p : Pins) (es : List Event) :
    (Chips.reactAll g n p c es).out.length = 8 * n := by
  induction es generalizing p c with
  | nil => exact h
  | cons e es ih => exact ih (Chips.react_out_length h p e) (p.apply e)

theorem State.runPlan_chips (s : State) (p : Plan) :
    (s.runPlan p).chips =
      { Chips.reactAll s.freeStream s.config.n s.pins s.chips p.events with
        mode := p.finish.modeAfter s.chips.mode } := by
  rw [State.runPlan_eq]

/-! ### The invariant -/

theorem State.GoodBoundary.present {s : State} (h : s.GoodBoundary) (c : HostCommand) (rest : List HostCommand) :
    (s.present c rest).GoodBoundary := { h with }

theorem State.GoodBoundary.dropBuffer {s : State} (h : s.GoodBoundary) : s.dropBuffer.GoodBoundary := { h with }

theorem State.GoodTrace.present {s : State} (h : s.GoodTrace) (c : HostCommand) (rest : List HostCommand) :
    (s.present c rest).GoodTrace := { h with }

theorem State.GoodTrace.dropBuffer {s : State} (h : s.GoodTrace) : s.dropBuffer.GoodTrace := { h with }

/-- A command run from a good boundary ends at a good boundary. -/
theorem State.GoodBoundary.runPlan {s : State} (h : s.GoodBoundary) {i : Instr} {p : Plan}
    (hp : planOf i s = some p) : (s.runPlan p).GoodBoundary := by
  obtain ⟨hclk, hle⟩ := applyAll_lines_low (planOf_wellShaped hp) h.clkLow h.leLow
  obtain ⟨hexists, hagrees, hnone⟩ := goodLine_iff.mp (planOf_goodLine hp h.goodLine)
  have hout := Chips.reactAll_out_length (g := s.freeStream) h.outWidth s.pins p.events
  constructor
  case atLeastMin => rw [State.runPlan_config]; exact h.atLeastMin
  case atMostMax => rw [State.runPlan_config]; exact h.atMostMax
  case clkLow => rw [State.runPlan_pins]; exact hclk
  case leLow => rw [State.runPlan_pins]; exact hle
  case oeExists => rw [State.runPlan_pins, State.runPlan_hasOE]; exact hexists
  case oeAgrees => rw [State.runPlan_pins, State.runPlan_enable]; exact hagrees
  case noLine => rw [State.runPlan_hasOE, State.runPlan_enable]; exact hnone
  case outWidth => rw [State.runPlan_chips, State.runPlan_config]; exact hout

/-- A command applies its events to the registers, and adds whole pulses to the trace. -/
theorem State.GoodTrace.runPlan {s : State} (h : s.GoodTrace) {i : Instr} {p : Plan}
    (hp : planOf i s = some p) : (s.runPlan p).GoodTrace := by
  constructor
  case pinsReplay =>
    rw [State.runPlan_pins, State.runPlan_hasOE, State.runPlan_trace, Pins.applyAll_append, ← h.pinsReplay]
  case shaped =>
    rw [State.runPlan_trace]
    exact wellShaped_append h.shaped (planOf_wellShaped hp)

theorem State.GoodBuffers.microStep {s : State} (h : s.GoodBuffers) : s.microStep.GoodBuffers := by
  cases hq : s.seq with
  | idle => simpa [State.microStep, hq] using h
  | busy es f =>
    cases es with
    | nil =>
      rw [State.microStep_of_nil hq]
      exact ⟨Memory.wf_nil, h.inboxWf, fun _ => rfl⟩
    | cons e es =>
      rw [State.microStep_of_cons hq]
      exact ⟨h.bufWf, h.inboxWf, nofun⟩

/-- Settles O54: a micro-step runs towards the same boundary, and a command from a good boundary ends at one. -/
theorem stepKeepsTheInvariant : Obligations.StepKeepsTheInvariant := by
  intro s t h hstep
  obtain ⟨-, rfl⟩ | ⟨-, -, rfl⟩ | ⟨c, rest, i, u, hs, hi, -, hu, rfl⟩ := step_cases hstep
  · have hsettle : s.microStep.settle = s.settle := s.settle_microStep
    exact ⟨hsettle ▸ h.boundary, hsettle ▸ h.history, h.buffers.microStep⟩
  · exact h
  · obtain ⟨p, hp, rfl⟩ := runPlan_of_exec_idle (s := s.present c rest) hs hu
    have hsettle : s.settle = s := s.settle_idle hs
    have hboundary : s.GoodBoundary := hsettle ▸ h.boundary
    have hhistory : s.GoodTrace := hsettle ▸ h.history
    refine ⟨((hboundary.present c rest).runPlan hp).dropBuffer, ((hhistory.present c rest).runPlan hp).dropBuffer,
      Memory.wf_nil, ?_, fun _ => rfl⟩
    intro c' hc'
    have hrest : c' ∈ rest := by simpa using hc'
    exact h.buffers.inboxWf c' (hi ▸ List.mem_cons_of_mem c hrest)

/-- Settles O55: CONFIGURE clamps the chip count and raises `OE` beside a disabled flag. -/
theorem resetMeetsTheInvariant : Obligations.ResetMeetsTheInvariant := by
  obtain ⟨hmin, hmax⟩ := clampChips_mem (Nat.le_add_right Config.minChips Config.maxChipsAboveMin)
    Config.construction.requestedChips
  have hline : GoodLine State.reset.hasOE State.reset.pins.oe State.reset.enable := by
    show GoodLine State.reset.hasOE (if State.reset.hasOE then some (.level true) else none) .disabled
    cases State.reset.hasOE with
    | true => exact .level .disabled
    | false => exact .absent
  obtain ⟨hexists, hagrees, hnone⟩ := goodLine_iff.mp hline
  have hout : State.reset.chips.out.length = 8 * State.reset.config.n := by
    show ((List.range _).map _).length = _
    rw [List.length_map, List.length_range]
    rfl
  exact ⟨⟨hmin, hmax, rfl, rfl, hexists, hagrees, hnone, hout⟩, ⟨rfl, rfl⟩, ⟨Memory.wf_nil, nofun, fun _ => rfl⟩⟩

end Sys2Proof.Machine
end

section
/-! PROOFS of LATCH and of the print commands: their frames, what they leave alone, and what the chips show after them
(41_shift_primitives.md R67, 42_print_commands.md R70 to R77, 20_memory.md R40 to R42). -/

namespace Sys2Proof.Machine

/-! ### Lists of equal pieces -/

/-- A piece of a list of pieces of one length `m`, whatever follows them. -/
theorem take_drop_flatMap {α β : Type} {f : α → List β} {m : Nat} (hf : ∀ a, (f a).length = m) (l : List α)
    (k : Nat) (hk : k < l.length) (tail : List β) : ((l.flatMap f ++ tail).drop (m * k)).take m = f l[k] := by
  induction l generalizing k with
  | nil => exact absurd hk (Nat.not_lt_zero k)
  | cons a l ih =>
    rw [List.flatMap_cons, List.append_assoc]
    cases k with
    | zero => exact List.take_left' (hf a)
    | succ k =>
      rw [show m * (k + 1) = (f a).length + m * k by rw [hf, Nat.mul_succ, Nat.add_comm], ← List.drop_drop,
        List.drop_left]
      exact ih k (Nat.lt_of_succ_lt_succ hk)

/-! ### What a chip shows -/

theorem Chips.outBits_of_out {c : Chips} {bits : List Bit} (h : c.out = bits) (d : Nat) :
    c.outBits d = (bits.drop (bits.length - 8 * (d + 1))).take 8 := by
  rw [Chips.outBits, h]

/-- The pattern shifted last sits in the nearest chip (20_memory.md R41). -/
theorem Chips.shown_of_shifted {c : Chips} {older : List Bit} {ps : List Byte}
    (h : c.out = older ++ ps.flatMap wire8) {d : Nat} (hd : d < ps.length) :
    c.shown d = ps[ps.length - 1 - d] := by
  have hlen := flatMap_wire8_length ps
  have hpiece := take_drop_flatMap wire8_length ps (ps.length - 1 - d) (by omega) []
  rw [List.append_nil] at hpiece
  rw [Chips.shown, Chips.outBits_of_out h, List.length_append, hlen,
    show older.length + 8 * ps.length - 8 * (d + 1) = older.length + 8 * (ps.length - 1 - d) by omega,
    ← List.drop_drop, List.drop_left, hpiece, patternOfWire_wire8]

/-- What was in the chain before sits behind the patterns shifted last. -/
theorem Chips.outBits_of_older {c : Chips} {older newer : List Bit} {m : Nat} (h : c.out = older ++ newer)
    (hm : newer.length = 8 * m) {d : Nat} (hd : 8 * (d + 1) ≤ older.length) :
    c.outBits (d + m) = (older.drop (older.length - 8 * (d + 1))).take 8 := by
  rw [Chips.outBits_of_out h, List.length_append, hm,
    show older.length + 8 * m - 8 * (d + m + 1) = older.length - 8 * (d + 1) by omega,
    List.drop_append_of_le_length (by omega), List.take_append_of_le_length (by rw [List.length_drop]; omega)]

/-- A narrower window of the chain is the newer part of a wider one. -/
theorem newestBits_drop (g m k : Nat) (sr : List Bit) : (newestBits g (m + k) sr).drop k = newestBits g m sr := by
  simp only [newestBits, List.drop_append, List.drop_reverse, List.drop_drop, List.length_reverse, List.length_map,
    List.length_range, ← List.map_take, List.take_range]
  congr 4 <;> omega

/-! ### LATCH -/

/-- Settles O18: LATCH writes `LE` alone, and on a chain of one chip the window is the pattern shifted. -/
theorem latchCommitsTheShiftedBits : Obligations.LatchCommitsTheShiftedBits := by
  intro s p
  refine ⟨s.emitAll_trace _, s.emitAll_pins _, s.emitAll_enable _, fun hn hclk hle => ?_⟩
  have hout : ((s.emitAll (shiftPattern p)).emitAll latchPulse).chips.out = [] ++ [p].flatMap wire8 := by
    rw [← State.emitAll_append, State.emitAll_chips,
      show shiftPattern p ++ latchPulse = frame [p] by simp [frame], Chips.reactAll_frame _ _ _ _ _ hclk hle, hn]
    exact newestBits_exact s.freeStream s.chips.sr ([p].flatMap wire8)
  exact Chips.shown_of_shifted hout (Nat.zero_lt_one)

/-! ### The patterns of the print commands -/

@[simp] theorem textPatterns_length (s : State) (invert : Bool) (length : Nat) :
    (textPatterns s invert length).length = s.config.n := by
  simp [textPatterns]

@[simp] theorem rawPatterns_length (s : State) (length : Nat) : (rawPatterns s length).length = s.config.n := by
  simp [rawPatterns]

@[simp] theorem numberPatterns_length (n : Nat) (value : BitVec 16) : (numberPatterns n value).length = min n 2 := by
  simp [numberPatterns]

theorem textPatterns_getElem (s : State) (invert : Bool) (length : Nat) {k : Nat}
    (hk : k < (textPatterns s invert length).length) :
    (textPatterns s invert length)[k] = encodeChar (bufByte s length (textIndex invert s.config.n k)) := by
  simp [textPatterns]

theorem rawPatterns_getElem (s : State) (length : Nat) {k : Nat} (hk : k < (rawPatterns s length).length) :
    (rawPatterns s length)[k] = bufByte s length (s.config.n - 1 - k) := by
  simp [rawPatterns]

theorem lowByte_eq_extractLsb' (value : BitVec 16) : lowByte value = value.extractLsb' 0 8 := by
  apply BitVec.eq_of_toNat_eq
  simp [lowByte, Nat.and_two_pow_sub_one_eq_mod _ 8]

theorem highByte_eq_extractLsb' (value : BitVec 16) : highByte value = value.extractLsb' 8 8 := by
  apply BitVec.eq_of_toNat_eq
  simp [highByte, Nat.and_two_pow_sub_one_eq_mod _ 8]

/-- On two or more chips PRINT_NUMBER sends both bytes, else the low one. -/
theorem numberPatterns_of_pos {n : Nat} (hn : 0 < n) (value : BitVec 16) :
    numberPatterns n value =
      if n = 1 then [value.extractLsb' 0 8] else [value.extractLsb' 0 8, value.extractLsb' 8 8] := by
  rw [numberPatterns, lowByte_eq_extractLsb', highByte_eq_extractLsb']
  split
  · next h => subst h; rfl
  · rw [Nat.min_eq_right (by omega)]; rfl

/-! ### Print commands from an idle block -/

/-- The three commands of 42_print_commands.md. -/
def IsPrintCommand (i : Instr) : Prop :=
  (∃ invert length, i = .printText invert length) ∨ (∃ value, i = .printNumber value) ∨ (∃ length, i = .printRaw length)

/-- Each print command is the run of one frame and writes neither the flag nor the chips' mode. -/
theorem exec_print {i : Instr} {s : State} (hs : s.seq = .idle) (hi : IsPrintCommand i) :
    ∃ ps d, exec i s = .next (s.runPlan ⟨frame ps, .keep, d⟩) := by
  obtain ⟨invert, length, rfl⟩ | ⟨value, rfl⟩ | ⟨length, rfl⟩ := hi
  · exact ⟨_, _, exec_of_idle hs rfl⟩
  · exact ⟨_, _, exec_of_idle hs rfl⟩
  · exact ⟨_, _, exec_of_idle hs rfl⟩

/-- The outputs after a frame sent from idle lines. -/
theorem State.runPlan_frame_out {s : State} (hclk : s.pins.clk = false) (hle : s.pins.le = false) (ps : List Byte)
    (d : Nat) :
    (s.runPlan ⟨frame ps, .keep, d⟩).chips.out =
      newestBits s.freeStream (8 * s.config.n) (s.chips.sr ++ ps.flatMap wire8) := by
  rw [State.runPlan_chips, Chips.reactAll_frame _ _ _ _ _ hclk hle]

/-- A frame of as many patterns as there are chips is what they show, the last pattern nearest. -/
theorem State.runPlan_frame_shown {s : State} (hclk : s.pins.clk = false) (hle : s.pins.le = false) {ps : List Byte}
    (hn : ps.length = s.config.n) (d : Nat) {k : Nat} (hk : k < ps.length) :
    (s.runPlan ⟨frame ps, .keep, d⟩).chips.shown k = ps[ps.length - 1 - k] := by
  refine Chips.shown_of_shifted (older := []) ?_ hk
  rw [State.runPlan_frame_out hclk hle, ← hn, ← flatMap_wire8_length]
  exact newestBits_exact _ _ _

/-- Settles O20: a frame of the encoded patterns, the last of them read at index 0, or at `N - 1` when inverted. -/
theorem printTextSendsEncodedFrame : Obligations.PrintTextSendsEncodedFrame := by
  intro s invert length patterns hs hclk hle hn hpatterns
  obtain rfl : patterns = textPatterns s invert length := hpatterns
  have hne : textPatterns s invert length ≠ [] := List.ne_nil_of_length_pos (by simpa using hn)
  have hlast : (textPatterns s invert length).getLast hne =
      encodeChar (bufByte s length (if invert then s.config.n - 1 else 0)) := by
    rw [List.getLast_eq_getElem, textPatterns_getElem, textPatterns_length, textIndex, Nat.sub_self]
  rw [exec_of_idle (p := planPrintText invert length s) hs rfl, planPrintText,
    State.runPlan_frame s _ 1 hs hclk hle hne, hlast]
  rfl

/-- Settles O21: a frame of one or two patterns, the last of them holding bit 1 or bit 9 of the value as its bit 1. -/
theorem printNumberSendsLowByteFirst : Obligations.PrintNumberSendsLowByteFirst := by
  intro s value patterns hs hclk hle hn hpatterns
  rw [← numberPatterns_of_pos hn] at hpatterns
  subst hpatterns
  have hne : numberPatterns s.config.n value ≠ [] := List.ne_nil_of_length_pos (by simpa using hn)
  have hlast : ((numberPatterns s.config.n value).getLast hne).getLsbD 1 =
      value.getLsbD (if s.config.n = 1 then 1 else 9) := by
    simp only [numberPatterns_of_pos hn]
    split <;> simp
  rw [exec_of_idle (p := planPrintNumber value s) hs rfl, planPrintNumber,
    State.runPlan_frame s _ 0 hs hclk hle hne, hlast]
  rfl

/-- Settles O22: a frame of the raw patterns, the last of them read at index 0. -/
theorem printRawSendsBufferBackwards : Obligations.PrintRawSendsBufferBackwards := by
  intro s length patterns hs hclk hle hn hpatterns
  have hraw : patterns = rawPatterns s length := by
    rw [hpatterns, rawPatterns]
    refine List.ext_getElem (by simp) fun k _ _ => by simp
  subst hraw
  have hne : rawPatterns s length ≠ [] := List.ne_nil_of_length_pos (by simpa using hn)
  have hlast : (rawPatterns s length).getLast hne = bufByte s length 0 := by
    rw [List.getLast_eq_getElem, rawPatterns_getElem, rawPatterns_length, Nat.sub_self]
  rw [exec_of_idle (p := planPrintRaw length s) hs rfl, planPrintRaw,
    State.runPlan_frame s _ 1 hs hclk hle hne, hlast]
  rfl

/-- Settles O23: the events at position `p` are the shift of pattern `p`. -/
theorem printTextChainPositions : Obligations.PrintTextChainPositions := by
  intro s invert length hs
  refine ⟨_, exec_of_idle (p := planPrintText invert length s) hs rfl, fun p hp => ?_⟩
  have hlt : p < (textPatterns s invert length).length := by simpa using hp
  rw [State.runPlan_trace, ← List.drop_drop, List.drop_left, planPrintText, frame,
    take_drop_flatMap shiftPattern_length _ p hlt, textPatterns_getElem]
  rfl

/-- SHIFT_PATTERN writes the data and clock lines only. -/
theorem port_of_mem_shiftBits {bs : List Bit} {e : Event} (he : e ∈ bs.flatMap shiftBit) :
    e.port = some .sdi ∨ e.port = some .clk := by
  obtain ⟨b, -, hb⟩ := List.mem_flatMap.mp he
  simp only [shiftBit, clockPulse, List.mem_cons, List.not_mem_nil, or_false] at hb
  obtain rfl | rfl | rfl := hb
  · exact .inl rfl
  · exact .inr rfl
  · exact .inr rfl

/-- Settles O24: a frame is its shifts, then its latch pulse. -/
theorem oneLatchPulseEndsEveryFrame : Obligations.OneLatchPulseEndsEveryFrame := by
  intro s i hs hi
  obtain ⟨ps, d, hexec⟩ := exec_print hs hi
  refine ⟨_, ps.flatMap shiftPattern, hexec, ?_, fun e he => ?_⟩
  · rw [State.runPlan_trace, List.append_assoc]
    rfl
  · rw [flatMap_shiftPattern] at he
    exact port_of_mem_shiftBits he

/-- A sufficient length reads the caller's byte. -/
theorem bufByte_eq_of_read {s s' : State} {length length' k : Nat} {b : Byte} (hk : k < length) (hk' : k < length')
    (hb : s.buf.read k = some b) (hb' : s'.buf.read k = some b) : bufByte s length k = bufByte s' length' k := by
  rw [bufByte_supplied hk hb, bufByte_supplied hk' hb']

/-- The block with another buffer presented. -/
def State.withBuf (s : State) (buf : Memory) : State := { s with buf := buf }

/-- The run of an event list does not look at the buffer. -/
theorem State.runPlan_withBuf (s : State) (buf : Memory) (p : Plan) :
    (s.withBuf buf).runPlan p = (s.runPlan p).withBuf buf := by
  simp only [State.runPlan_eq]
  rfl

theorem textIndex_lt {invert : Bool} {n i : Nat} (h : i < n) : textIndex invert n i < n := by
  unfold textIndex
  split <;> omega

section SameBytes
variable {s s' : State} {length length' : Nat} (hn : s'.config.n = s.config.n)
  (hbyte : ∀ k, k < s.config.n → bufByte s' length' k = bufByte s length k)
include hn hbyte

theorem textPatterns_congr (invert : Bool) : textPatterns s' invert length' = textPatterns s invert length := by
  unfold textPatterns
  rw [hn]
  exact List.map_congr_left fun i hi => congrArg encodeChar (hbyte _ (textIndex_lt (List.mem_range.mp hi)))

theorem rawPatterns_congr : rawPatterns s' length' = rawPatterns s length := by
  unfold rawPatterns
  rw [hn]
  refine List.map_congr_left fun j hj => hbyte _ ?_
  have hlt := List.mem_range.mp hj
  omega

end SameBytes

/-- A command that computes the same event list from another buffer has the same effect but for it. -/
theorem exec_withBuf {i j : Instr} {s : State} {p : Plan} {buf : Memory} (hs : s.seq = .idle)
    (hi : planOf i s = some p) (hj : planOf j (s.withBuf buf) = some p) :
    ∃ t, exec i s = .next t ∧ exec j (s.withBuf buf) = .next (t.withBuf buf) :=
  ⟨s.runPlan p, exec_of_idle hs hi, State.runPlan_withBuf s buf p ▸ exec_of_idle (s := s.withBuf buf) hs hj⟩

/-- Settles O25: both commands read the buffer below `N` only, where length and buffer make no difference. -/
theorem printReadsOnlyTheFirstNBytes : Obligations.PrintReadsOnlyTheFirstNBytes := by
  intro s buf' invert length length' hs hlen hlen' hsame
  have hn : (s.withBuf buf').config.n = s.config.n := rfl
  have hbyte : ∀ k, k < s.config.n → bufByte (s.withBuf buf') length' k = bufByte s length k := by
    intro k hk
    obtain ⟨b, hb, hb'⟩ := hsame k hk
    exact bufByte_eq_of_read (by omega) (by omega) hb' hb
  have htext : planPrintText invert length' (s.withBuf buf') = planPrintText invert length s := by
    rw [planPrintText, planPrintText, textPatterns_congr hn hbyte]
  have hraw : planPrintRaw length' (s.withBuf buf') = planPrintRaw length s := by
    rw [planPrintRaw, planPrintRaw, rawPatterns_congr hn hbyte]
  exact ⟨exec_withBuf (i := .printText invert length) hs rfl (congrArg some htext),
    exec_withBuf (i := .printRaw length) hs rfl (congrArg some hraw)⟩

theorem State.runPlan_chipMode (s : State) (p : Plan) :
    (s.runPlan p).chips.mode = p.finish.modeAfter s.chips.mode := by
  rw [State.runPlan_chips]

/-- Settles O26: the frame writes `SDI`, `CLK` and `LE`, and its update writes nothing. -/
theorem printCommandsFrame : Obligations.PrintCommandsFrame := by
  intro s i hs hi
  obtain ⟨ps, d, hexec⟩ := exec_print hs hi
  refine ⟨_, hexec, s.runPlan_config _, s.runPlan_enable _, ?_, s.runPlan_chipMode _, s.runPlan_inbox _, rfl,
    fun k => by rw [State.runPlan_buf]⟩
  rw [State.runPlan_pins, Pins.applyAll_frame_oe]

/-- Settles O27: the pattern `d` before the last is buffer byte `d`. -/
theorem printRawShowsTheBuffer : Obligations.PrintRawShowsTheBuffer := by
  intro s length hs hclk hle
  refine ⟨_, exec_of_idle (p := planPrintRaw length s) hs rfl, fun d hd => ?_⟩
  rw [planPrintRaw, State.runPlan_frame_shown hclk hle (rawPatterns_length s length) 1 (by simpa using hd),
    rawPatterns_getElem, rawPatterns_length]
  congr 1
  omega

/-- Settles O28: the pattern `d` before the last encodes byte `d`, or `N - 1 - d` when inverted. -/
theorem printTextShowsTheEncodedBuffer : Obligations.PrintTextShowsTheEncodedBuffer := by
  intro s invert length hs hclk hle
  refine ⟨_, exec_of_idle (p := planPrintText invert length s) hs rfl, fun d hd => ?_⟩
  have hindex : textIndex invert s.config.n (s.config.n - 1 - d) = if invert then s.config.n - 1 - d else d := by
    unfold textIndex
    split <;> omega
  rw [planPrintText, State.runPlan_frame_shown hclk hle (textPatterns_length s invert length) 1 (by simpa using hd),
    textPatterns_getElem, textPatterns_length, hindex]

/-- Settles O29: two patterns were shifted in, so the window two chips farther is the older window. -/
theorem printNumberMovesOldContentsTwoChips : Obligations.PrintNumberMovesOldContentsTwoChips := by
  intro s value hs hclk hle hn hout
  have hpatterns : numberPatterns s.config.n value = [value.extractLsb' 0 8, value.extractLsb' 8 8] := by
    rw [numberPatterns_of_pos (by omega), if_neg (by omega)]
  have hexec := exec_of_idle (i := .printNumber value) hs rfl
  rw [planPrintNumber, hpatterns] at hexec
  refine ⟨_, hexec, ?_⟩
  generalize hps : [value.extractLsb' 0 8, value.extractLsb' 8 8] = ps
  have hlen : (ps.flatMap wire8).length = 8 * 2 := by rw [flatMap_wire8_length, ← hps]; rfl
  have hnew := State.runPlan_frame_out hclk hle ps 0
  rw [newestBits_append _ _ _ _ (by omega), hlen] at hnew
  refine ⟨?_, ?_, fun d hd => ?_⟩
  · rw [Chips.shown_of_shifted hnew (by simp [← hps])]
    simp [← hps]
  · rw [Chips.shown_of_shifted hnew (by simp [← hps])]
    simp [← hps]
  · have holder : newestBits s.freeStream (8 * s.config.n - 8 * 2) s.chips.sr = s.chips.out.drop (8 * 2) := by
      rw [hout, ← newestBits_drop _ _ (8 * 2)]
      congr 2
      omega
    rw [Chips.shown, Chips.shown, Chips.outBits_of_older hnew hlen (by rw [newestBits_length]; omega), holder,
      Chips.outBits, List.drop_drop, List.length_drop]
    have hwidth : s.chips.out.length = 8 * s.config.n := by rw [hout, newestBits_length]
    congr 3
    omega

/-- Settles O19: a buffer built from bytes reads them by index. -/
theorem bufferReadsSuppliedBytes : Obligations.BufferReadsSuppliedBytes := by
  intro s bs length k hbuf
  have hread : s.buf.read k = bs[k]? := by rw [hbuf, Memory.read_ofBytes]
  refine ⟨fun b hk hb => bufByte_supplied hk (hread.trans hb), fun h => bufByte_unsupplied (h.imp_right fun hle => ?_)⟩
  rw [hread, List.getElem?_eq_none hle]

end Sys2Proof.Machine
end

section
/-! PROOFS of the mode transitions and the enable commands with an enable line (43_mode_control.md R80 to R84,
44_enable_brightness.md R86 to R90, 70_reset_and_hazards.md R117, R118). -/

namespace Sys2Proof.Machine

/-! ### Event lists with and without an enable line -/

section Plans
variable {s : State}

theorem planDisplayEnable_of_hasOE (h : s.hasOE = true) : planDisplayEnable s = ⟨[.oeDown], .setFlag .enabled, 0⟩ :=
  if_pos h

theorem planDisplayEnable_of_not_hasOE (h : s.hasOE = false) : planDisplayEnable s = .nothing :=
  if_neg (Bool.eq_false_iff.mp h)

theorem planDisplayDisable_of_hasOE (h : s.hasOE = true) : planDisplayDisable s = ⟨[.oeUp], .setFlag .disabled, 0⟩ :=
  if_pos h

theorem planDisplayDisable_of_not_hasOE (h : s.hasOE = false) : planDisplayDisable s = .nothing :=
  if_neg (Bool.eq_false_iff.mp h)

theorem planSetBrightness_of_hasOE (h : s.hasOE = true) (level : Byte) :
    planSetBrightness level s = ⟨[.pwm (dutyOf level)], .keep, 0⟩ :=
  if_pos h

theorem planSetBrightness_of_not_hasOE (h : s.hasOE = false) (level : Byte) :
    planSetBrightness level s = ⟨[.diag], .keep, 0⟩ :=
  if_neg (Bool.eq_false_iff.mp h)

theorem planEnterSpecialMode_of_hasOE (h : s.hasOE = true) : planEnterSpecialMode s = ⟨specialSequence, .special, 0⟩ :=
  if_pos h

theorem planEnterNormalMode_of_hasOE (h : s.hasOE = true) :
    planEnterNormalMode s = ⟨normalSequence ++ restoreEnable s.enable s, .normal s.enable, 0⟩ :=
  if_pos h

theorem restoreEnable_of_hasOE (h : s.hasOE = true) :
    restoreEnable s.enable s = if s.enable = .enabled then [.oeDown] else [] := by
  cases he : s.enable with
  | enabled => rw [if_pos rfl, restoreEnable, planDisplayEnable_of_hasOE h]
  | disabled => rfl

end Plans

/-- The duty never wraps (40_encoder.md R63). -/
theorem dutyOf_eq (level : Byte) : dutyOf level = BitVec.ofNat 8 (255 - level.toNat) := by
  apply BitVec.eq_of_toNat_eq
  have hlt := level.isLt
  simp only [dutyOf, BitVec.toNat_sub, BitVec.toNat_ofNat]
  omega

/-! ### The chips during a mode sequence -/

/-- Each clock pulse of a mode sequence clocks in the level `SDI` holds (20_memory.md R41). -/
theorem Chips.reactAll_modePrefix {g n : Nat} {p : Pins} {c : Chips} (h : p.clk = false) :
    Chips.reactAll g n p c modePrefix = { c with sr := c.sr ++ List.replicate 4 p.sdi } := by
  simp [modePrefix, clockPulse, Chips.reactAll, Chips.react, Chips.shiftIn, Pins.apply, Pins.write, h, List.replicate]

/-- The latch rise of the special sequence stands after its fourth clock pulse. -/
theorem Chips.reactAll_specialSequence {g n : Nat} {p : Pins} {c : Chips} (hclk : p.clk = false) (hle : p.le = false) :
    Chips.reactAll g n p c specialSequence =
      { c with
        sr := c.sr ++ List.replicate 6 p.sdi
        out := newestBits g (8 * n) (c.sr ++ List.replicate 4 p.sdi) } := by
  rw [specialSequence, List.append_assoc, List.append_assoc, List.append_assoc, Chips.reactAll_append,
    Chips.reactAll_modePrefix hclk, Pins.applyAll_modePrefix]
  simp [clockPulse, Chips.reactAll, Chips.react, Chips.shiftIn, Chips.latch, Pins.apply, Pins.write, hle,
    List.replicate]

theorem Chips.reactAll_normalSequence {g n : Nat} {p : Pins} {c : Chips} (hclk : p.clk = false) :
    Chips.reactAll g n p c normalSequence = { c with sr := c.sr ++ List.replicate 7 p.sdi } := by
  rw [normalSequence, List.append_assoc, List.append_assoc, Chips.reactAll_append,
    Chips.reactAll_modePrefix hclk, Pins.applyAll_modePrefix]
  simp [clockPulse, Chips.reactAll, Chips.react, Chips.shiftIn, Pins.apply, Pins.write, List.replicate]

/-- Writing `OE` is no edge for the chips. -/
theorem Chips.reactAll_restoreEnable {s : State} (h : s.hasOE = true) (g n : Nat) (p : Pins) (c : Chips) :
    Chips.reactAll g n p c (restoreEnable s.enable s) = c := by
  rw [restoreEnable_of_hasOE h]
  split <;> rfl

/-! ### The mode transitions -/

/-- A mode sequence ends with the clock line low, where it was. -/
theorem Pins.clkLow_eq {p : Pins} (hclk : p.clk = false) (oe : Option OeDrive) :
    { p with clk := false, oe := oe } = { p with oe := oe } := by
  cases p; cases hclk; rfl

theorem Pins.linesLow_eq {p : Pins} (hclk : p.clk = false) (hle : p.le = false) (oe : Option OeDrive) :
    { p with clk := false, le := false, oe := oe } = { p with oe := oe } := by
  cases p; cases hclk; cases hle; rfl

/-- Settles O33: the special sequence on the registers and on the chips. -/
theorem enterSpecialModeSequence : Obligations.EnterSpecialModeSequence := by
  intro s hs hline hclk hle
  rw [exec_of_idle (p := planEnterSpecialMode s) hs rfl, planEnterSpecialMode_of_hasOE hline, State.runPlan_eq,
    Pins.applyAll_specialSequence, Pins.linesLow_eq hclk hle, Chips.reactAll_specialSequence hclk hle, ← hs]
  rfl

/-- Settles O34: the normal sequence, then `E-` when the display was enabled. -/
theorem enterNormalModeSequence : Obligations.EnterNormalModeSequence := by
  intro s hs hline hclk hle
  have hoe : s.enable.oeLevel = if s.enable = .enabled then false else true := by cases s.enable <;> rfl
  have hmode : (Finish.normal s.enable).modeAfter s.chips.mode = .normal := by cases s.enable <;> rfl
  rw [exec_of_idle (p := planEnterNormalMode s) hs rfl, planEnterNormalMode_of_hasOE hline, State.runPlan_eq,
    applyAll_normalEvents hline, Pins.clkLow_eq hclk, Chips.reactAll_append, Chips.reactAll_normalSequence hclk,
    Chips.reactAll_restoreEnable hline, Finish.normal_flagAfter, hmode, hoe, restoreEnable_of_hasOE hline, ← hs]
  rfl

/-- What ENTER_NORMAL_MODE does to the flag and to `OE`, from any idle state with an enable line. -/
theorem exec_enterNormalMode_enable {s : State} (hs : s.seq = .idle) (hline : s.hasOE = true) :
    ∃ t, exec .enterNormalMode s = .next t ∧ t.enable = s.enable ∧ t.pins.oe = some (.level s.enable.oeLevel) := by
  refine ⟨_, exec_of_idle (p := planEnterNormalMode s) hs rfl, ?_, ?_⟩
  · rw [State.runPlan_enable, planEnterNormalMode_of_hasOE hline, Finish.normal_flagAfter]
  · rw [State.runPlan_pins, planEnterNormalMode_of_hasOE hline, applyAll_normalEvents hline]

/-- ENTER_SPECIAL_MODE disables the display, from any idle state with an enable line. -/
theorem exec_enterSpecialMode_enable {s : State} (hs : s.seq = .idle) (hline : s.hasOE = true) :
    ∃ t, exec .enterSpecialMode s = .next t ∧ t.seq = .idle ∧ t.hasOE = true ∧ t.enable = .disabled ∧
      t.pins.oe = some (.level true) := by
  refine ⟨_, exec_of_idle (p := planEnterSpecialMode s) hs rfl, rfl, (s.runPlan_hasOE _).trans hline, ?_, ?_⟩
  · rw [State.runPlan_enable, planEnterSpecialMode_of_hasOE hline]
    rfl
  · rw [State.runPlan_pins, planEnterSpecialMode_of_hasOE hline, Pins.applyAll_specialSequence]

/-- Settles O36: the special transition disables, and the normal one keeps the flag and drives `OE` by it. -/
theorem modeRoundTripEndsDisabled : Obligations.ModeRoundTripEndsDisabled := by
  intro s hs hline
  obtain ⟨t, ht, hidle, hline', hflag, -⟩ := exec_enterSpecialMode_enable hs hline
  obtain ⟨u, hu, hkeep, hoe⟩ := exec_enterNormalMode_enable hidle hline'
  refine ⟨t, u, ht, hu, hkeep.trans hflag, ?_⟩
  rw [hoe, hflag]
  rfl

/-- Settles O37: the next states of O33 and O34, or the same state without an enable line. -/
theorem modeTransitionsFrame : Obligations.ModeTransitionsFrame := by
  intro s i hs hclk hle hi
  cases hline : s.hasOE with
  | false =>
    obtain ⟨hspecial, hnormal⟩ := modeTransitionsNeedAnEnableLine s hs hline
    refine ⟨s, ?_, rfl, rfl, hclk, hle, rfl, rfl, hs, fun _ => rfl, fun _ => ⟨rfl, rfl⟩⟩
    obtain rfl | rfl := hi
    · exact hspecial
    · exact hnormal
  | true =>
    obtain rfl | rfl := hi
    · exact ⟨_, enterSpecialModeSequence s hs hline hclk hle, rfl, rfl, hclk, hle, rfl, rfl, hs, fun _ => rfl, nofun⟩
    · exact ⟨_, enterNormalModeSequence s hs hline hclk hle, rfl, rfl, hclk, hle, rfl, rfl, hs, fun _ => rfl,
        fun _ => ⟨rfl, rfl⟩⟩

/-! ### Enable, disable, brightness -/

/-- Settles O38: one `OE` event and the flag, or the empty event list. -/
theorem displayEnableDrivesOeLow : Obligations.DisplayEnableDrivesOeLow := by
  intro s hs
  cases hline : s.hasOE with
  | false => exact exec_of_planOf_nothing hs (congrArg some (planDisplayEnable_of_not_hasOE hline))
  | true =>
    rw [exec_of_idle (p := planDisplayEnable s) hs rfl, planDisplayEnable_of_hasOE hline, State.runPlan_eq, ← hs]
    rfl

/-- Settles O39: one `OE` event and the flag, or the empty event list. -/
theorem displayDisableDrivesOeHigh : Obligations.DisplayDisableDrivesOeHigh := by
  intro s hs
  cases hline : s.hasOE with
  | false => exact exec_of_planOf_nothing hs (congrArg some (planDisplayDisable_of_not_hasOE hline))
  | true =>
    rw [exec_of_idle (p := planDisplayDisable s) hs rfl, planDisplayDisable_of_hasOE hline, State.runPlan_eq, ← hs]
    rfl

/-- Settles O40: one event in either configuration, and no update of the flag. -/
theorem setBrightnessWritesInvertedDuty : Obligations.SetBrightnessWritesInvertedDuty := by
  intro s level hs
  rw [exec_of_idle (p := planSetBrightness level s) hs rfl, ← dutyOf_eq]
  cases hline : s.hasOE with
  | false =>
    rw [planSetBrightness_of_not_hasOE hline, State.runPlan_eq, ← hs]
    rfl
  | true =>
    rw [planSetBrightness_of_hasOE hline, State.runPlan_eq, ← hs]
    rfl

/-- Settles O41: read off the next states of O38, O39 and O40. -/
theorem enableCommandsFrame : Obligations.EnableCommandsFrame := by
  intro s i hs hi
  obtain rfl | rfl | ⟨level, rfl⟩ := hi
  · refine ⟨_, displayEnableDrivesOeLow s hs, ?_⟩
    split <;> simp [hs]
  · refine ⟨_, displayDisableDrivesOeHigh s hs, ?_⟩
    split <;> simp [hs]
  · refine ⟨_, setBrightnessWritesInvertedDuty s level hs, ?_⟩
    split <;> simp [hs]

/-- Settles O42: the last write of each of the four commands to `OE` is a level write. -/
theorem levelWritesCancelPwm : Obligations.LevelWritesCancelPwm := by
  intro s i duty hline _ hs hi
  simp only [List.mem_cons, List.not_mem_nil, or_false] at hi
  obtain rfl | rfl | rfl | rfl := hi
  · exact ⟨_, false, displayEnableDrivesOeLow s hs, by rw [if_pos hline]⟩
  · exact ⟨_, true, displayDisableDrivesOeHigh s hs, by rw [if_pos hline]⟩
  · obtain ⟨t, ht, -, -, -, hoe⟩ := exec_enterSpecialMode_enable hs hline
    exact ⟨t, true, ht, hoe⟩
  · obtain ⟨t, ht, -, hoe⟩ := exec_enterNormalMode_enable hs hline
    exact ⟨t, _, ht, hoe⟩

theorem exec_displayDisable_enable {s : State} (hs : s.seq = .idle) (hline : s.hasOE = true) :
    ∃ t, exec .displayDisable s = .next t ∧ t.seq = .idle ∧ t.hasOE = true ∧ t.enable = .disabled := by
  refine ⟨_, exec_of_idle (p := planDisplayDisable s) hs rfl, rfl, (s.runPlan_hasOE _).trans hline, ?_⟩
  rw [State.runPlan_enable, planDisplayDisable_of_hasOE hline]
  rfl

theorem exec_setBrightness_enable {s : State} (hs : s.seq = .idle) (hline : s.hasOE = true) (level : Byte) :
    ∃ t, exec (.setBrightness level) s = .next t ∧ t.seq = .idle ∧ t.hasOE = true ∧ t.enable = s.enable ∧
      t.pins.oe = some (.pwm (dutyOf level)) := by
  refine ⟨_, exec_of_idle (p := planSetBrightness level s) hs rfl, rfl, (s.runPlan_hasOE _).trans hline, ?_, ?_⟩
  · rw [State.runPlan_enable, planSetBrightness_of_hasOE hline]
    rfl
  · rw [State.runPlan_pins, planSetBrightness_of_hasOE hline]
    rfl

/-- Settles O43: the duty of SET_BRIGHTNESS stands beside the flag until ENTER_NORMAL_MODE drives `OE` by the flag. -/
theorem brightnessCanContradictTheFlag : Obligations.BrightnessCanContradictTheFlag := by
  intro s hs hline
  obtain ⟨t, ht, htIdle, htLine, htFlag⟩ := exec_displayDisable_enable hs hline
  obtain ⟨u, hu, huIdle, huLine, huFlag, huOe⟩ := exec_setBrightness_enable htIdle htLine 255
  obtain ⟨v, hv, hvFlag, hvOe⟩ := exec_enterNormalMode_enable huIdle huLine
  have hdisabled : u.enable = .disabled := huFlag.trans htFlag
  refine ⟨t, u, v, ht, hu, hv, hdisabled, ?_, hvFlag.trans hdisabled, ?_⟩
  · rw [huOe]
    rfl
  · rw [hvOe, hdisabled]
    rfl

end Sys2Proof.Machine
end

section
/-! PROOFS over all commands: how many events each emits (46_command_classes.md R125), and who writes the flag and `OE`
(10_state.md R15, 60_exceptions.md R96). -/

namespace Sys2Proof.Machine

/-! ### Event counts -/

theorem exec_trace_length {i : Instr} {s : State} {p : Plan} (hs : s.seq = .idle) (hp : planOf i s = some p) :
    ∃ t, exec i s = .next t ∧ t.trace.length = s.trace.length + p.events.length :=
  ⟨s.runPlan p, exec_of_idle hs hp, by rw [State.runPlan_trace, List.length_append]⟩

theorem planEnterNormalMode_length {s : State} (h : s.hasOE = true) :
    (planEnterNormalMode s).events.length = if s.enable = .enabled then 18 else 17 := by
  rw [planEnterNormalMode_of_hasOE h, restoreEnable_of_hasOE h]
  split <;> rfl

/-- Settles O46: the length of each event list. -/
theorem eventCounts : Obligations.EventCounts := by
  intro s hs
  refine ⟨fun invert length => ?_, fun value => ?_, fun length => ?_, fun i hi => ?_, fun level => ?_, ?_, ?_⟩
  · have h := exec_trace_length (i := .printText invert length) hs rfl
    rwa [planPrintText, frame_length, textPatterns_length, ← Nat.add_assoc] at h
  · have h := exec_trace_length (i := .printNumber value) hs rfl
    rwa [planPrintNumber, frame_length, numberPatterns_length, ← Nat.add_assoc] at h
  · have h := exec_trace_length (i := .printRaw length) hs rfl
    rwa [planPrintRaw, frame_length, rawPatterns_length, ← Nat.add_assoc] at h
  · obtain rfl | rfl := hi
    · have h := exec_trace_length (i := .displayEnable) hs rfl
      have hlen : (planDisplayEnable s).events.length = if s.hasOE then 1 else 0 := by
        unfold planDisplayEnable; split <;> rfl
      rwa [hlen] at h
    · have h := exec_trace_length (i := .displayDisable) hs rfl
      have hlen : (planDisplayDisable s).events.length = if s.hasOE then 1 else 0 := by
        unfold planDisplayDisable; split <;> rfl
      rwa [hlen] at h
  · have h := exec_trace_length (i := .setBrightness level) hs rfl
    have hlen : (planSetBrightness level s).events.length = 1 := by
      unfold planSetBrightness; split <;> rfl
    rwa [hlen] at h
  · have h := exec_trace_length (i := .enterSpecialMode) hs rfl
    have hlen : (planEnterSpecialMode s).events.length = if s.hasOE then 17 else 0 := by
      unfold planEnterSpecialMode; split <;> rfl
    rwa [hlen] at h
  · have h := exec_trace_length (i := .enterNormalMode) hs rfl
    cases hline : s.hasOE with
    | true => rwa [planEnterNormalMode_length hline] at h
    | false => rwa [planEnterNormalMode_of_not_hasOE hline] at h

/-! ### Writers of the flag and of `OE` -/

/-- Without an enable line no command writes the flag or `OE` (60_exceptions.md R96). -/
theorem planOf_of_not_hasOE {i : Instr} {s : State} {p : Plan} (hp : planOf i s = some p) (hline : s.hasOE = false) :
    p.finish.flagAfter s.enable = s.enable ∧ (s.pins.applyAll p.events).oe = s.pins.oe := by
  cases i with
  | selfTest => cases hp
  | printText invert length => cases hp; exact ⟨rfl, Pins.applyAll_frame_oe _ _⟩
  | printNumber value => cases hp; exact ⟨rfl, Pins.applyAll_frame_oe _ _⟩
  | printRaw length => cases hp; exact ⟨rfl, Pins.applyAll_frame_oe _ _⟩
  | displayEnable => cases hp; rw [planDisplayEnable_of_not_hasOE hline]; exact ⟨rfl, rfl⟩
  | displayDisable => cases hp; rw [planDisplayDisable_of_not_hasOE hline]; exact ⟨rfl, rfl⟩
  | setBrightness level => cases hp; rw [planSetBrightness_of_not_hasOE hline]; exact ⟨rfl, rfl⟩
  | enterSpecialMode => cases hp; rw [planEnterSpecialMode_of_not_hasOE hline]; exact ⟨rfl, rfl⟩
  | enterNormalMode => cases hp; rw [planEnterNormalMode_of_not_hasOE hline]; exact ⟨rfl, rfl⟩

/-- Only DISPLAY_ENABLE, DISPLAY_DISABLE and ENTER_SPECIAL_MODE change the flag. -/
theorem planOf_flag_writer {i : Instr} {s : State} {p : Plan} (hp : planOf i s = some p)
    (h : p.finish.flagAfter s.enable ≠ s.enable) :
    i = .displayEnable ∨ i = .displayDisable ∨ i = .enterSpecialMode := by
  cases i with
  | selfTest => cases hp
  | printText invert length => cases hp; exact absurd rfl h
  | printNumber value => cases hp; exact absurd rfl h
  | printRaw length => cases hp; exact absurd rfl h
  | displayEnable => exact .inl rfl
  | displayDisable => exact .inr (.inl rfl)
  | enterSpecialMode => exact .inr (.inr rfl)
  | setBrightness level =>
    cases hp
    refine absurd ?_ h
    unfold planSetBrightness
    split <;> rfl
  | enterNormalMode =>
    cases hp
    refine absurd ?_ h
    unfold planEnterNormalMode
    split
    · exact Finish.normal_flagAfter s.enable
    · rfl

/-- The print commands never write `OE`. -/
theorem planOf_oe_writer {i : Instr} {s : State} {p : Plan} (hp : planOf i s = some p)
    (h : (s.pins.applyAll p.events).oe ≠ s.pins.oe) :
    i = .displayEnable ∨ i = .displayDisable ∨ i = .enterSpecialMode ∨ i = .enterNormalMode ∨
      ∃ level, i = .setBrightness level := by
  cases i with
  | selfTest => cases hp
  | printText invert length => cases hp; exact absurd (Pins.applyAll_frame_oe _ _) h
  | printNumber value => cases hp; exact absurd (Pins.applyAll_frame_oe _ _) h
  | printRaw length => cases hp; exact absurd (Pins.applyAll_frame_oe _ _) h
  | displayEnable => simp
  | displayDisable => simp
  | enterSpecialMode => simp
  | enterNormalMode => simp
  | setBrightness level => simp

/-- Settles O51: which event lists write, and that none does without an enable line. -/
theorem flagWriters : Obligations.FlagWriters := by
  intro i s t hs hexec
  obtain ⟨p, hp, rfl⟩ := runPlan_of_exec_idle hs hexec
  rw [State.runPlan_enable, State.runPlan_pins]
  refine ⟨fun hflag => ⟨?_, planOf_flag_writer hp hflag⟩, fun hoe => ⟨?_, planOf_oe_writer hp hoe⟩⟩
  · by_contra hline
    obtain ⟨hkeep, -⟩ := planOf_of_not_hasOE hp (Bool.eq_false_iff.mpr hline)
    exact hflag hkeep
  · by_contra hline
    obtain ⟨-, hkeep⟩ := planOf_of_not_hasOE hp (Bool.eq_false_iff.mpr hline)
    exact hoe hkeep

end Sys2Proof.Machine
end

section
/-! PROOFS of the platform calls (20_memory.md R31, R33, 70_reset_and_hazards.md R109). -/

namespace Sys2Proof.Machine

/-- A command's calls are those of its events, on the pins of the same configuration. -/
theorem State.runPlan_calls (s : State) (p : Plan) :
    (s.runPlan p).calls = s.calls ++ p.events.filterMap s.callOf := by
  rw [State.runPlan_eq, State.calls, State.calls, List.filterMap_append, ← List.append_assoc]
  rfl

theorem exec_calls {i : Instr} {s : State} {p : Plan} (hs : s.seq = .idle) (hp : planOf i s = some p) :
    ∃ t, exec i s = .next t ∧ t.calls = s.calls ++ p.events.filterMap s.callOf :=
  ⟨s.runPlan p, exec_of_idle hs hp, s.runPlan_calls p⟩

/-- An event and the level write it is on the data, clock or latch pin. -/
def IsLineCall (config : ChainConfig) (e : Event) (c : CollabCall) : Prop :=
  ∃ b : Bit,
    (e = .write .sdi b ∧ c = .writeDigital config.dataPin b) ∨
    (e = .write .clk b ∧ c = .writeDigital config.clockPin b) ∨
    (e = .write .le b ∧ c = .writeDigital config.latchPin b)

/-- An event on one of the three lines is one call. -/
theorem exists_callOf {s : State} {e : Event} (h : e.port = some .sdi ∨ e.port = some .clk ∨ e.port = some .le) :
    ∃ c, s.callOf e = some c ∧ IsLineCall s.config e c := by
  cases e with
  | diag => simp [Event.port] at h
  | pwm d => simp [Event.port] at h
  | write p b =>
    cases p with
    | sdi => exact ⟨_, rfl, b, .inl ⟨rfl, rfl⟩⟩
    | clk => exact ⟨_, rfl, b, .inr (.inl ⟨rfl, rfl⟩)⟩
    | le => exact ⟨_, rfl, b, .inr (.inr ⟨rfl, rfl⟩)⟩
    | oe => simp [Event.port] at h

/-- Events on the three lines are one call each, in their order. -/
theorem forall₂_callOf {s : State} {es : List Event}
    (h : ∀ e ∈ es, e.port = some .sdi ∨ e.port = some .clk ∨ e.port = some .le) :
    List.Forall₂ (IsLineCall s.config) es (es.filterMap s.callOf) := by
  induction es with
  | nil => exact .nil
  | cons e es ih =>
    obtain ⟨c, hc, hline⟩ := exists_callOf (s := s) (h e List.mem_cons_self)
    rw [List.filterMap_cons_some hc]
    exact .cons hline (ih fun e' he' => h e' (List.mem_cons_of_mem e he'))

theorem port_of_mem_frame {ps : List Byte} {e : Event} (he : e ∈ frame ps) :
    e.port = some .sdi ∨ e.port = some .clk ∨ e.port = some .le := by
  rw [frame, flatMap_shiftPattern, List.mem_append] at he
  obtain he | he := he
  · exact (port_of_mem_shiftBits he).imp_right .inl
  · simp only [latchPulse, List.mem_cons, List.not_mem_nil, or_false] at he
    obtain rfl | rfl := he <;> exact .inr (.inr rfl)

/-- Settles O50: a frame writes the three lines only, and each such event is one call. -/
theorem printWritesReachTheirPins : Obligations.PrintWritesReachTheirPins := by
  intro s i hs hi
  obtain ⟨ps, d, hexec⟩ := exec_print hs hi
  exact ⟨_, frame ps, _, hexec, s.runPlan_trace _, s.runPlan_calls _, forall₂_callOf fun _ => port_of_mem_frame⟩

/-- The calls of a clock pulse. -/
theorem filterMap_callOf_clockPulse (s : State) :
    clockPulse.filterMap s.callOf = [.writeDigital s.config.clockPin true, .writeDigital s.config.clockPin false] := rfl

theorem filterMap_callOf_le (s : State) (b : Bit) :
    [Event.write .le b].filterMap s.callOf = [.writeDigital s.config.latchPin b] := rfl

section EnablePin
variable {s : State} {pin : PinId} (hpin : s.config.enablePin = some pin)
include hpin

theorem hasOE_of_enablePin : s.hasOE = true := by
  rw [State.hasOE, ChainConfig.hasOE, hpin]
  rfl

theorem callOf_oe (b : Bit) : s.callOf (.write .oe b) = some (.writeDigital pin b) := by
  rw [State.callOf, State.pinOf, hpin]
  rfl

theorem callOf_pwm (duty : Byte) : s.callOf (.pwm duty) = some (.writePWM pin duty) := by
  rw [State.callOf, State.pinOf, hpin]
  rfl

/-- The calls of MODE_PREFIX: `OE` levels on the enable pin, pulses on the clock pin. -/
theorem filterMap_callOf_modePrefix :
    modePrefix.filterMap s.callOf =
      [CollabCall.writeDigital pin true] ++ clockPulse.filterMap s.callOf ++ [.writeDigital pin false] ++
        clockPulse.filterMap s.callOf ++ [.writeDigital pin true] ++ clockPulse.filterMap s.callOf ++
        clockPulse.filterMap s.callOf := by
  have hoe : ∀ b, [Event.write .oe b].filterMap s.callOf = [.writeDigital pin b] :=
    fun b => List.filterMap_cons_some (callOf_oe hpin b)
  simp only [modePrefix, List.filterMap_append, hoe]

theorem filterMap_callOf_restoreEnable :
    (restoreEnable s.enable s).filterMap s.callOf =
      if s.enable = .enabled then [.writeDigital pin false] else [] := by
  rw [restoreEnable_of_hasOE (hasOE_of_enablePin hpin)]
  split
  · exact List.filterMap_cons_some (callOf_oe hpin false)
  · rfl

end EnablePin

/-- Without an enable pin the commands that would drive `OE` make no call. -/
theorem filterMap_callOf_of_no_enablePin {s : State} (hpin : s.config.enablePin = none) {i : Instr}
    (hi : i = .displayEnable ∨ i = .displayDisable ∨ (∃ level, i = .setBrightness level) ∨ i = .enterSpecialMode ∨
      i = .enterNormalMode) :
    ∃ p, planOf i s = some p ∧ p.events.filterMap s.callOf = [] := by
  have hline : s.hasOE = false := by
    rw [State.hasOE, ChainConfig.hasOE, hpin]
    rfl
  obtain rfl | rfl | ⟨level, rfl⟩ | rfl | rfl := hi
  · exact ⟨_, rfl, by rw [planDisplayEnable_of_not_hasOE hline]; rfl⟩
  · exact ⟨_, rfl, by rw [planDisplayDisable_of_not_hasOE hline]; rfl⟩
  · exact ⟨_, rfl, by rw [planSetBrightness_of_not_hasOE hline]; rfl⟩
  · exact ⟨_, rfl, by rw [planEnterSpecialMode_of_not_hasOE hline]; rfl⟩
  · exact ⟨_, rfl, by rw [planEnterNormalMode_of_not_hasOE hline]; rfl⟩

/-- Settles O58: the event lists of the five commands, call by call. -/
theorem enableWritesReachTheEnablePin : Obligations.EnableWritesReachTheEnablePin := by
  intro s hs
  constructor
  · rintro pin _ _ _ hpin rfl rfl rfl
    have hline := hasOE_of_enablePin hpin
    refine ⟨?_, ?_, fun level => ?_, ?_, ?_⟩
    · have h := exec_calls (i := .displayEnable) hs rfl
      rwa [planDisplayEnable_of_hasOE hline, List.filterMap_cons_some (callOf_oe hpin false)] at h
    · have h := exec_calls (i := .displayDisable) hs rfl
      rwa [planDisplayDisable_of_hasOE hline, List.filterMap_cons_some (callOf_oe hpin true)] at h
    · have h := exec_calls (i := .setBrightness level) hs rfl
      rwa [planSetBrightness_of_hasOE hline, List.filterMap_cons_some (callOf_pwm hpin _), dutyOf_eq] at h
    · have h := exec_calls (i := .enterSpecialMode) hs rfl
      simp only [planEnterSpecialMode_of_hasOE hline, specialSequence, List.filterMap_append,
        filterMap_callOf_modePrefix hpin, filterMap_callOf_clockPulse, filterMap_callOf_le] at h
      exact h
    · have h := exec_calls (i := .enterNormalMode) hs rfl
      simp only [planEnterNormalMode_of_hasOE hline, normalSequence, List.filterMap_append,
        filterMap_callOf_modePrefix hpin, filterMap_callOf_clockPulse, filterMap_callOf_restoreEnable hpin] at h
      exact h
  · intro hpin i hi
    obtain ⟨p, hp, hnone⟩ := filterMap_callOf_of_no_enablePin hpin hi
    obtain ⟨t, ht, hcalls⟩ := exec_calls hs hp
    exact ⟨t, ht, by rw [hcalls, hnone, List.append_nil]⟩

theorem mem_pinsNamed {c : Construction} {pin : PinId} :
    pin ∈ pinsNamed c ↔ pin = c.dataPin ∨ pin = c.clockPin ∨ pin = c.latchPin ∨ c.enablePin = some pin := by
  simp [pinsNamed]

/-- CONFIGURE calls `configureOutput` once for each pin the construction names, and nothing else. -/
theorem configure_calls (stream maxChips : Nat) (c : Construction) :
    (State.configure stream maxChips c).calls = (pinsNamed c).map .configureOutput := by
  obtain ⟨n, d, ck, l, enablePin⟩ := c
  cases enablePin <;> rfl

/-- Settles O59: the calls are one for each pin the construction names. -/
theorem configureMakesThePinsOutputs : Obligations.ConfigureMakesThePinsOutputs := by
  intro stream maxChips c call
  rw [configure_calls, List.mem_map]
  constructor
  · rintro ⟨pin, hpin, rfl⟩
    exact ⟨pin, rfl, mem_pinsNamed.mp hpin⟩
  · rintro ⟨pin, rfl, hpin⟩
    exact ⟨pin, mem_pinsNamed.mpr hpin, rfl⟩

end Sys2Proof.Machine
end

section
/-! PROOFS of several blocks beside each other: their launch and a step of one of them (60_exceptions.md R105). -/

namespace Sys2Proof.Machine

theorem disjointPins_iff (cs : List Construction) :
    disjointPins cs = true ↔
      ∀ (a b : Nat) (x y : Construction), a < b → cs[a]? = some x → cs[b]? = some y →
        ∀ p ∈ pinsNamed x, p ∉ pinsNamed y := by
  rw [disjointPins, decide_eq_true_iff, List.pairwise_iff_getElem]
  constructor
  · intro h a b x y hab hx hy
    obtain ⟨ha, rfl⟩ := List.getElem?_eq_some_iff.mp hx
    obtain ⟨hb, rfl⟩ := List.getElem?_eq_some_iff.mp hy
    exact h a b ha hb hab
  · intro h a b ha hb hab
    exact h a b _ _ hab (List.getElem?_eq_getElem ha) (List.getElem?_eq_getElem hb)

/-- Settles O56: the launch tests exactly that no two constructions name the same pin. -/
theorem launchNeedsDisjointPins : Obligations.LaunchNeedsDisjointPins := by
  intro maxChips cs
  constructor
  · rintro ⟨a, b, p, hab, x, y, hx, hy, hpx, hpy⟩
    refine if_neg fun hdisjoint => ?_
    exact (disjointPins_iff cs).mp hdisjoint a b x y hab hx hy p hpx hpy
  · intro h
    exact if_pos ((disjointPins_iff cs).mpr h)

theorem stepInstance_of_none {k : Nat} {ss : List State} (h : ss[k]? = none) : stepInstance k ss = .next ss := by
  simp [stepInstance, h]

/-- A step of the block at `k` that answers replaces it, and it alone, by its own next state. -/
theorem stepInstance_of_some {k : Nat} {ss ts : List State} {s : State} (hk : ss[k]? = some s)
    (h : stepInstance k ss = .next ts) : ∃ t, step s = .next t ∧ ts = ss.set k t := by
  simp only [stepInstance, hk] at h
  cases hstep : step s with
  | next t =>
    rw [hstep] at h
    exact ⟨t, rfl, (Host.Outcome.next.inj h).symm⟩
  | fault r => cases r
  | refused r => rw [hstep] at h; cases h

/-- Settles O57: with a block at `k` its place alone is replaced, without one nothing is. -/
theorem instancesAreIndependent : Obligations.InstancesAreIndependent := by
  intro k ss ts h
  cases hk : ss[k]? with
  | none =>
    rw [stepInstance_of_none hk] at h
    cases h
    exact ⟨rfl, fun _ _ => rfl, fun _ hs => by cases hs⟩
  | some s =>
    obtain ⟨t, hstep, rfl⟩ := stepInstance_of_some hk h
    refine ⟨List.length_set, fun j hj => List.getElem?_set_ne (Ne.symm hj), fun s' hs' => ?_⟩
    cases hs'
    obtain ⟨hlt, -⟩ := List.getElem?_eq_some_iff.mp hk
    exact ⟨t, hstep, List.getElem?_set_self hlt⟩

end Sys2Proof.Machine
end
